-- ==== Sys2Proof/Word.lean ====
section
/-! DEFINITION. The bit-vector types of the block (00_scope.md R7, R11): host registers are 32 bits, PCM samples 16,
ADPCM codes 4, the step index 7, memory bytes 8. -/
namespace Sys2Proof

/-- A host-visible register (`REG_W` = 32, R7). -/
abbrev Word := BitVec 32

/-- A signed 16-bit PCM sample (`PCM_W` = 16, R7). -/
abbrev Sample := BitVec 16

/-- A 4-bit ADPCM code, the sign in bit 3 and the magnitude in bits 2 to 0 (`CODE_W` = 4, R7, R12). -/
abbrev Code := BitVec 4

/-- The `INDEX` register, 7 bits wide in hardware (R31). -/
abbrev StepIndex := BitVec 7

/-- One byte of the buffer memory (R61). -/
abbrev Byte := BitVec 8

end Sys2Proof
end

