-- ==== Sys2Proof/Config.lean ====
section
/-! DEFINITION. What a platform fixes (00_scope.md R7), the default contents of the constant tables (10_state.md R41,
R43), what a byte of buffer memory that nothing has written reads as, and the free values (constants with no body). -/
namespace Sys2Proof.Config

/-- `STEP_TABLE`, entries 0 to 49 (R41). PRESUMED by the spec itself: the IMA/DVI table, general knowledge (93, K1). -/
def stepTableLow : List Nat :=
  [7, 8, 9, 10, 11, 12, 13, 14, 16, 17] ++
  [19, 21, 23, 25, 28, 31, 34, 37, 41, 45] ++
  [50, 55, 60, 66, 73, 80, 88, 97, 107, 118] ++
  [130, 143, 157, 173, 190, 209, 230, 253, 279, 307] ++
  [337, 371, 408, 449, 494, 544, 598, 658, 724, 796]

/-- `STEP_TABLE`, entries 50 to 88 (R41). -/
def stepTableHigh : List Nat :=
  [876, 963, 1060, 1166, 1282, 1411, 1552, 1707, 1878, 2066] ++
  [2272, 2499, 2749, 3024, 3327, 3660, 4026, 4428, 4871, 5358] ++
  [5894, 6484, 7132, 7845, 8630, 9493, 10442, 11487, 12635, 13899] ++
  [15289, 16818, 18500, 20350, 22385, 24623, 27086, 29794, 32767]

/-- The default `STEP_TABLE` (R41). Log entry 4. -/
def stepTable : List Nat := stepTableLow ++ stepTableHigh

/-- The default `INDEX_TABLE` (R43). PRESUMED by the spec itself (93, K2). Log entry 4. -/
def indexTable : List Int :=
  [-1, -1, -1, -1, 2, 4, 6, 8] ++ [-1, -1, -1, -1, 2, 4, 6, 8]

/-- The default `ADDR_W` (R7). Log entry 5. -/
def addrW : Nat := 32

/-- The default `NUM_INSTANCES` (R7). Log entry 5. -/
def numInstances : Nat := 1

/-- `REG_BASE`, "the platform chooses" (20_memory.md R60). DESIGN CHOICE: 0; no claim rests on it. Log entry 5. -/
def regBase : Nat := 0

/-- What a byte of buffer memory that nothing has written reads as. DESIGN CHOICE, unsafe; 95_test_vectors.md section 6:
"Memory not listed holds 0". Log entry 6. -/
def unlistedByte : Byte := 0

/-- The `n`-th free value: nothing constrains it (10_state.md R45, R48; 20_memory.md R72; 70_reset_and_hazards.md R211).
Log entry 7. -/
opaque freeWord : Nat → Word

/-- The step read at an index the table has no entry for. R32 says such an index never occurs, so nothing is said of the
value. Log entry 15. -/
opaque absentStep : Nat → Nat

/-- The adjustment read at a code an ill-formed table has no entry for. Log entry 15. -/
opaque absentAdjust : Nat → Int

end Sys2Proof.Config
end

