-- ==== Sys2Proof/Machine/State.lean ====
section
/-! DEFINITION. The state of the platform: the selected instance, the other instances, the buffer memory, the
parameters, and the pending turns of the agents (10_state.md R30-R49; 00_scope.md R10; 60_exceptions.md R196). -/
namespace Sys2Proof.Machine

/-- The Adaptation State (R30, R31): "the only mutable entity". -/
structure Adaptation where
  /-- `PRED`, a signed 16-bit value (R30). -/
  pred : Sample
  /-- `INDEX`, 7 bits, 0 to 88 (R31, R32). -/
  index : StepIndex
  deriving DecidableEq, Repr

/-- The fresh state {0, 0} (R16, R120). -/
def Adaptation.fresh : Adaptation := ⟨0, 0⟩

/-- The legal values of `STATUS.ERR` (60_exceptions.md R181); 7 to 15 are never produced. -/
inductive ErrCode where
  | ok | illegal | framing | dstShort | srcShort | range | badState
  deriving DecidableEq, Repr

/-- Hidden state (R45), which the host cannot read and which means something only while `BUSY` is 1. -/
structure Hidden where
  /-- `CMDL`, the latched command word. -/
  cmdl : Word
  /-- `SRCL`. -/
  srcl : Word
  /-- `SRCLENL`. -/
  srclenl : Word
  /-- `DSTL`. -/
  dstl : Word
  /-- `DSTLENL`. -/
  dstlenl : Word
  /-- `NSAMPL`. -/
  nsampl : Word
  /-- `POS`, the sample being processed. -/
  pos : Word
  /-- `HOLD`, the code or nibble waiting for its pair. -/
  hold : Code
  deriving DecidableEq, Repr

/-- One instance of the block: its registers (R30-R39) and its hidden state (R45). -/
structure Instance where
  /-- `REG_BASE`, where the platform places the register window (20_memory.md R60, R68); no step changes it. Log entry
  5. -/
  base : Nat
  /-- `PRED` and `INDEX`. -/
  adp : Adaptation
  /-- `STATUS.BUSY` (R37, R46). -/
  busy : Bool
  /-- `STATUS.OVF` (R37). -/
  ovf : Bool
  /-- `STATUS.ERR` (R37). -/
  err : ErrCode
  /-- `RESULT` (R38). -/
  result : Word
  /-- `SRC` as written; its bits above `ADDR_W` read 0 and are ignored (R39). -/
  src : Word
  /-- `SRCLEN` (R39). -/
  srclen : Word
  /-- `DST` as written; its bits above `ADDR_W` read 0 and are ignored (R39). -/
  dst : Word
  /-- `DSTLEN` (R39). -/
  dstlen : Word
  /-- `NSAMP` (R39). -/
  nsamp : Word
  /-- The hidden state. -/
  hid : Hidden
  deriving DecidableEq, Repr

/-- The bytes `base` to `base + len - 1`. -/
structure Range where
  base : Nat
  len : Nat
  deriving DecidableEq, Repr

/-- What a region of the address space is, where it is not plain memory. -/
inductive RegionKind where
  /-- The platform admits no read here: a device that issues one is stuck (20_memory.md R70). -/
  | noReads
  /-- The platform admits no write here, as in a ROM: a device that issues one is stuck (R70). A region that admits no
  access at all is listed under both kinds. -/
  | noWrites
  /-- Memory with read side effects: "outside this spec" (R67, U18). -/
  | sideEffects
  deriving DecidableEq, Repr

/-- A region of the platform's address space that is not plain memory. Regions may overlap. -/
structure Region where
  kind : RegionKind
  range : Range
  deriving DecidableEq, Repr

/-- The parameters of the platform (00_scope.md R7, 20_memory.md R70) and the two constant tables (R40, R42). No step
changes them. Log entries 4, 5, 13. -/
structure Params where
  /-- `STEP_TABLE`. -/
  stepTable : List Nat
  /-- `INDEX_TABLE`. -/
  indexTable : List Int
  /-- `ADDR_W`. -/
  addrW : Nat
  /-- The regions that are not plain memory; every other address below `2^ADDR_W` is. -/
  regions : List Region
  deriving DecidableEq, Repr

/-- The buffer memory (20_memory.md R61): address and byte pairs, addresses strictly rising, no entry equal to what an
unlisted address reads as. -/
abbrev Memory := List Host.Cell

/-- One host step (70_reset_and_hazards.md R213), or the reset input of an instance (R210): `k` 0 is the selected one,
`k + 1` is entry `k` of the others. An access to a register window names its bus address and its width in bytes. -/
inductive HostAction where
  /-- Read `width` bytes of a register window at the bus address `addr`. -/
  | regRead (addr width : Nat)
  /-- Write `v` as `width` bytes of a register window at the bus address `addr`. -/
  | regWrite (addr width : Nat) (v : Word)
  /-- Read the byte of buffer memory at `a`. -/
  | memRead (a : Nat)
  /-- Write the byte `v` of buffer memory at `a`. -/
  | memWrite (a : Nat) (v : Byte)
  /-- Assert the reset input of instance `k`. -/
  | reset (k : Nat)
  deriving DecidableEq, Repr

/-- Which agent moves (00_scope.md R10). -/
inductive Turn where
  /-- The device agent of instance `k`. -/
  | device (k : Nat)
  /-- The host. -/
  | host (a : HostAction)
  deriving DecidableEq, Repr

/-- Why a step faults. The block itself raises no fault (93_implementation_defined.md section 1); both are the
platform's, and both are safe: the model stops where the spec describes no access. Log entry 20. -/
inductive Fault where
  /-- Raised by a host access to buffer memory at an address that does not exist, at or above `2^ADDR_W` (R61) or in a
  region where the platform does not admit the access (R70), and by a register access at an address in no instance's window (R60).
  Safe. -/
  | noSuchAddress
  /-- Raised by a turn that names an instance the platform does not have (R196). Safe. -/
  | noSuchInstance
  deriving DecidableEq, Repr

/-- Why a step has no meaning (60_exceptions.md R186). All are safe: the model gives the run no meaning from there
on. -/
inductive Refusal where
  /-- An arm of `exec` that has no meaning yet. Raised by no arm now. Safe. -/
  | notModelled (mnemonic : String)
  /-- `ALIAS`: raised by the issue and by the execution of a buffer command whose non-empty read and write ranges share
  a byte (20_memory.md R77, R188). Safe. -/
  | aliased
  /-- `BUFFER_RACE`: raised by a host write into a running command's ranges (R72), and by a command whose ranges
  conflict with those of another running instance (R196). Safe. -/
  | bufferRace
  /-- `REG_ACCESS`: raised by a register access that is not 32 bits wide or not 4-byte aligned (R60). Safe. -/
  | regAccess
  /-- Raised by an access to memory with read side effects, which is outside the spec (R67, U18). Safe. -/
  | sideEffects
  deriving DecidableEq, Repr

/-- The whole state, plain data. -/
structure State where
  /-- The selected instance of the block. -/
  dev : Instance
  /-- The other instances (R196); none by default (R7). -/
  others : List Instance
  /-- The buffer memory (R61), shared by the instances. -/
  mem : Memory
  /-- The parameters and the constant tables. -/
  cfg : Params
  /-- The model's own: the pending turns, the first one next. Log entry 1. -/
  agenda : List Turn
  /-- The model's own: what the host's last read returned. Log entry 21. -/
  rdata : Word
  /-- The model's own: how many free values have been drawn. Log entry 7. -/
  draws : Nat
  deriving DecidableEq, Repr

/-- The hidden state right after reset, unspecified and unread (R49). DESIGN CHOICE: zero. Log entry 8. -/
def Hidden.zero : Hidden := ⟨0, 0, 0, 0, 0, 0, 0, 0⟩

/-- An instance at its reset values (R49, R210), with `h` for the hidden state, which R49 leaves unspecified, and its
window at `base`. -/
def Instance.resetWith (base : Nat) (h : Hidden) : Instance :=
  { base := base, adp := Adaptation.fresh, busy := false, ovf := false, err := .ok, result := 0, src := 0
    srclen := 0, dst := 0,
    dstlen := 0, nsamp := 0, hid := h }

/-- The parameters the hardware takes by default (R7, R41, R43). -/
def Params.default : Params :=
  { stepTable := Config.stepTable, indexTable := Config.indexTable, addrW := Config.addrW, regions := [] }

/-- The machine right after reset: every register 0, idle, in the fresh state (R49). -/
def State.reset : State :=
  { dev := Instance.resetWith Config.regBase Hidden.zero
    others := (List.range (Config.numInstances - 1)).map fun k =>
      Instance.resetWith (Config.regBase + 256 * (k + 1)) Hidden.zero
    mem := []
    cfg := Params.default
    agenda := []
    rdata := 0
    draws := 0 }

end Sys2Proof.Machine
end

