-- ==== Sys2Proof/Machine/Arith.lean ====
section
/-! DEFINITION. The per-sample arithmetic (40_codec_core.md R100-R110), on exact integers (R107). -/
namespace Sys2Proof.Machine

/-- `Clamp(v, lo, hi)` (00_scope.md R13). -/
def clamp (v lo hi : Int) : Int := if v < lo then lo else if hi < v then hi else v

/-- `STEP_TABLE[k]` (10_state.md R40, R44). -/
def Params.step (c : Params) (k : StepIndex) : Nat :=
  match c.stepTable[k.toNat]? with
  | some v => v
  | none => Config.absentStep k.toNat

/-- `INDEX_TABLE[code]`, indexed by the whole code (R42). -/
def Params.adjust (c : Params) (code : Code) : Int :=
  match c.indexTable[code.toNat]? with
  | some v => v
  | none => Config.absentAdjust code.toNat

/-- One test of `Quantize` (R102): is `d ≥ t`, and what is left of `d`. -/
def quantBit (d t : Nat) : Bool × Nat := if t ≤ d then (true, d - t) else (false, d)

/-- The three magnitude bits of a difference `d` at a step (R102), the bit of value 4 first; "halve" is the floor
shift. -/
def quantMagnitude (d step : Nat) : BitVec 3 :=
  let b2 := quantBit d step
  let b1 := quantBit b2.2 (step >>> 1)
  let b0 := quantBit b1.2 ((step >>> 1) >>> 1)
  BitVec.ofBool b2.1 ++ (BitVec.ofBool b1.1 ++ BitVec.ofBool b0.1)

/-- `Quantize(s, p, step)` (R101, R102): the sign is set exactly when the difference is negative. -/
def quantize (s p : Int) (step : Nat) : Code :=
  BitVec.ofBool (decide (s - p < 0)) ++ quantMagnitude (s - p).natAbs step

/-- The sign bit `code[3]` (R12). -/
def codeSign (code : Code) : Bool := code.getLsbD 3

/-- The magnitude `code[2:0]` (R12). -/
def codeMagnitude (code : Code) : BitVec 3 := code.extractLsb' 0 3

/-- `Reconstruct(step, m)` (R104): `vpdiff`. -/
def reconstruct (step : Nat) (m : BitVec 3) : Nat :=
  (step >>> 3) + (if m.getLsbD 2 then step else 0) + (if m.getLsbD 1 then step >>> 1 else 0)
    + (if m.getLsbD 0 then step >>> 2 else 0)

/-- `predicted_value` with `vpdiff` added or subtracted, before the clamp (R106). -/
def moved (pred : Int) (code : Code) (vpdiff : Nat) : Int :=
  if codeSign code then pred - vpdiff else pred + vpdiff

/-- `Adapt(code)` (R106). Both results are clamped, never wrapped. -/
def adapt (c : Params) (a : Adaptation) (code : Code) : Adaptation :=
  { pred := BitVec.ofInt 16
      (clamp (moved a.pred.toInt code (reconstruct (c.step a.index) (codeMagnitude code))) (-32768) 32767)
    index := BitVec.ofInt 7 (clamp (a.index.toNat + c.adjust code) 0 88) }

/-- The code the encoder step chooses for a sample (R108). -/
def chooseCode (c : Params) (a : Adaptation) (s : Sample) : Code :=
  quantize s.toInt a.pred.toInt (c.step a.index)

/-- The encoder step (R108): `Quantize` then `Adapt`. -/
def encodeStep (c : Params) (a : Adaptation) (s : Sample) : Code × Adaptation :=
  (chooseCode c a s, adapt c a (chooseCode c a s))

end Sys2Proof.Machine
end

