-- ==== Sys2Proof/Syntax.lean ====
section
/-! DEFINITION. The six commands (30_encoding.md R81, opcode_table.json), one constructor per row, and the assembler
lines of R87 that spell them. -/
namespace Sys2Proof

/-- A decoded command. The operands have the widths of their fields (R82), so every `Instr` has a word. -/
inductive Instr where
  /-- `INIT` (R120): load the fresh state. -/
  | init
  /-- `LDST p, k` (R121): load the Adaptation State; `p` is `IMM16`, `k` is `IDX`. -/
  | ldst (p : Sample) (k : StepIndex)
  /-- `ENCS s` (R122): encode one sample; `s` is `IMM16`. -/
  | encs (s : Sample)
  /-- `DECS c` (R123): decode one code; `c` is `CODE`. -/
  | decs (c : Code)
  /-- `ENCB` (`cont` false) and `ENCB.C` (`cont` true) (R150): encode a buffer. -/
  | encb (cont : Bool)
  /-- `DECB` (`cont` false) and `DECB.C` (`cont` true) (R160): decode a buffer. -/
  | decb (cont : Bool)
  deriving DecidableEq, Repr

/-- The rows of opcode_table.json. -/
inductive Mnemonic where
  | init | ldst | encs | decs | encb | decb
  deriving DecidableEq, Repr

/-- The row a command belongs to. -/
def Instr.mnemonic : Instr → Mnemonic
  | .init => .init
  | .ldst _ _ => .ldst
  | .encs _ => .encs
  | .decs _ => .decs
  | .encb _ => .encb
  | .decb _ => .decb

/-- One line of assembler text (R87). Its operands are integers as written, which may be out of range. -/
inductive AsmLine where
  | init
  | ldst (p k : Int)
  | encs (s : Int)
  | decs (c : Int)
  | encb (cont : Bool)
  | decb (cont : Bool)
  deriving DecidableEq, Repr

end Sys2Proof
end

