-- ==== Sys2Proof/WellFormed.lean ====
section
/-! DEFINITION. Well-formedness. A decoded `Instr` is well-formed by its types: each operand has exactly the width of
its field (30_encoding.md R80, R82). An assembler line has integer operands, and "An assembler rejects an operand
outside its range" (R87): `AsmLine.wellFormed` is that check. -/
namespace Sys2Proof

/-- `lo ≤ v ≤ hi`. -/
def inRange (lo hi v : Int) : Bool := decide (lo ≤ v) && decide (v ≤ hi)

/-- The operand ranges of R87. `LDST` admits every 7-bit index: 89 to 127 is a legal spelling that fails later (R84). -/
def AsmLine.wellFormed : AsmLine → Bool
  | .init => true
  | .ldst p k => inRange (-32768) 32767 p && inRange 0 127 k
  | .encs s => inRange (-32768) 32767 s
  | .decs c => inRange 0 15 c
  | .encb _ => true
  | .decb _ => true

end Sys2Proof
end

