-- ==== Sys2Proof/Decode.lean ====
section
/-! DEFINITION. Decoding and encoding of command words, written from the mask and match of each row (30_encoding.md
R83). -/
namespace Sys2Proof

/-- The bits a row fixes (`mask`) and the value they have (`pattern`), as in R83 and opcode_table.json. -/
structure Row where
  mask : Word
  pattern : Word
  deriving DecidableEq, Repr

/-- The table of R83. -/
def Mnemonic.row : Mnemonic → Row
  | .init => ⟨0xFFFFFFFF, 0x00000001⟩
  | .ldst => ⟨0x000080FF, 0x00000002⟩
  | .encs => ⟨0x0000FFFF, 0x00000003⟩
  | .decs => ⟨0xFFFFF0FF, 0x00000004⟩
  | .encb => ⟨0xFFFFFFEF, 0x00000005⟩
  | .decb => ⟨0xFFFFFFEF, 0x00000006⟩

/-- "A word `w` spells command `X` exactly when `(w & mask_X) = match_X`" (R83). -/
def spells (w : Word) (m : Mnemonic) : Bool := w &&& m.row.mask == m.row.pattern

/-- The field `OP` (R80). -/
def opField (w : Word) : BitVec 4 := w.extractLsb' 0 4

/-- The field `C` (R80, R82). -/
def contField (w : Word) : Bool := w.getLsbD 4

/-- The field `CODE` (R80, R82). -/
def codeField (w : Word) : Code := w.extractLsb' 8 4

/-- The field `IDX` (R80, R82). -/
def idxField (w : Word) : StepIndex := w.extractLsb' 8 7

/-- The field `IMM16` (R80, R82). -/
def immField (w : Word) : Sample := w.extractLsb' 16 16

/-- Why a word is ILLEGAL (R84). -/
inductive DecodeError where
  /-- `OP` is 0x0 or 0x7 to 0xF. -/
  | illegalOp (op : BitVec 4)
  /-- A valid `OP` with a fixed bit that does not have its value. -/
  | fixedBitSet (op : BitVec 4)
  deriving DecidableEq, Repr

/-- Why `w`, which no row of R83 matches, is ILLEGAL. -/
def illegalWord (w : Word) : DecodeError :=
  if 1 ≤ (opField w).toNat ∧ (opField w).toNat ≤ 6 then .fixedBitSet (opField w) else .illegalOp (opField w)

/-- The decoder (R86): total, every word is one of the six commands or ILLEGAL. -/
def decode (w : Word) : Except DecodeError Instr :=
  if spells w .init then .ok .init
  else if spells w .ldst then .ok (.ldst (immField w) (idxField w))
  else if spells w .encs then .ok (.encs (immField w))
  else if spells w .decs then .ok (.decs (codeField w))
  else if spells w .encb then .ok (.encb (contField w))
  else if spells w .decb then .ok (.decb (contField w))
  else .error (illegalWord w)

/-- The word of a command (R83, R87); `++` is the concatenation of R11, the high bits first. -/
def encode : Instr → Word
  | .init => 0#28 ++ 0x1#4
  | .ldst p k => p ++ (0#1 ++ (k ++ 0x02#8))
  | .encs s => s ++ 0x0003#16
  | .decs c => 0#20 ++ (c ++ 0x04#8)
  | .encb cont => 0#27 ++ (BitVec.ofBool cont ++ 0x5#4)
  | .decb cont => 0#27 ++ (BitVec.ofBool cont ++ 0x6#4)

/-- The command an assembler line names: `p[15:0]`, `k[6:0]`, `c[3:0]` of its operands (R87). -/
def AsmLine.toInstr : AsmLine → Instr
  | .init => .init
  | .ldst p k => .ldst (BitVec.ofInt 16 p) (BitVec.ofInt 7 k)
  | .encs s => .encs (BitVec.ofInt 16 s)
  | .decs c => .decs (BitVec.ofInt 4 c)
  | .encb cont => .encb cont
  | .decb cont => .decb cont

/-- The assembler (R87): the word of a well-formed line; "An assembler rejects an operand outside its range". -/
def assemble (l : AsmLine) : Option Word :=
  if l.wellFormed then some (encode l.toInstr) else none

/-- The command the decoder reads from the low `nbits` bits of `w`, the bits above them 0. A command is one 32-bit word
(R80), so the word is its bits as the opcode table numbers them. -/
def decodeTableWord (nbits w : Nat) : Option Instr :=
  match decode (BitVec.ofNat 32 (w % 2 ^ nbits)) with
  | .ok i => some i
  | .error _ => none

end Sys2Proof
end

