-- ==== Sys2Proof/Machine/Flags.lean ====
section
/-! DEFINITION. The `STATUS` register (10_state.md R37): the error codes and how the fields make the word the host
reads. -/
namespace Sys2Proof.Machine

/-- The number of an error code (60_exceptions.md R181). -/
def ErrCode.code : ErrCode → BitVec 4
  | .ok => 0
  | .illegal => 1
  | .framing => 2
  | .dstShort => 3
  | .srcShort => 4
  | .range => 5
  | .badState => 6

/-- `STATUS` as the host reads it (R37): `ERR` in [7:4], `OVF` in [1], `BUSY` in [0], every reserved bit 0. -/
def Instance.statusWord (d : Instance) : Word :=
  0#24 ++ (d.err.code ++ (0#2 ++ (BitVec.ofBool d.ovf ++ BitVec.ofBool d.busy)))

/-- A write to `CMD` or to an operand register while `BUSY` is 1: it is ignored and sets `OVF` (R218). -/
def Instance.overflow (d : Instance) : Instance := { d with ovf := true }

/-- What an issue does to `STATUS` (R216): `BUSY` 1, `OVF` 0, `ERR` 0. -/
def Instance.startBusy (d : Instance) : Instance := { d with busy := true, ovf := false, err := .ok }

end Sys2Proof.Machine
end

