-- ==== Sys2Proof/Machine/Ops.lean ====
section
/-! DEFINITION. The shared operations over memory, ranges, registers and free values, and the two ways a command ends
(60_exceptions.md R182, R183), which stand here in the place of exception entry and return: the block has none
(R189). -/
namespace Sys2Proof.Machine

/-! ### Buffer memory (20_memory.md R61-R67) -/

/-- The byte at `a`. -/
def Memory.read : Memory → Nat → Byte
  | [], _ => Config.unlistedByte
  | (b, v) :: m, a => if b = a then v else Memory.read m a

/-- The entry for `v` at `a`, none where an unlisted address reads the same. -/
def Memory.entry (a : Nat) (v : Byte) : Memory := if v = Config.unlistedByte then [] else [(a, v)]

/-- Write `v` at `a`, keeping the canonical form. -/
def Memory.write : Memory → Nat → Byte → Memory
  | [], a, v => Memory.entry a v
  | (b, w) :: m, a, v =>
    if a < b then Memory.entry a v ++ (b, w) :: m
    else if b = a then Memory.entry a v ++ m
    else (b, w) :: Memory.write m a v

/-- The canonical form: addresses strictly rising, no entry equal to what an unlisted address reads as. -/
abbrev Memory.wf (m : Memory) : Prop :=
  List.Pairwise (fun x y : Host.Cell => x.1 < y.1) m ∧ ∀ c ∈ m, c.2 ≠ Config.unlistedByte

/-- Free bytes at `base`, `base + 1`, ... (`n` of them), drawn from the free values `d`, `d + 1`, ... -/
def Memory.scramble (m : Memory) (base d : Nat) : Nat → Memory
  | 0 => m
  | n + 1 => Memory.write (Memory.scramble m base d n) (base + n) ((Config.freeWord (d + n)).setWidth 8)

/-! ### Ranges (20_memory.md R69, R77) -/

/-- Is `a` one of the range's bytes. -/
def Range.contains (r : Range) (a : Nat) : Bool := decide (r.base ≤ a) && decide (a < r.base + r.len)

/-- Do two non-empty ranges share a byte (R77; the test of R150 and R160). -/
def Range.overlaps (r q : Range) : Bool :=
  decide (0 < r.len) && decide (0 < q.len) && decide (r.base < q.base + q.len) && decide (q.base < r.base + r.len)

/-- Does the range stay below `2^ADDR_W`; "A range of length 0 is never out of range" (R69). -/
def Range.fits (r : Range) (addrW : Nat) : Bool := decide (r.len = 0) || decide (r.base + r.len ≤ 2 ^ addrW)

/-- Does a region of kind `k` share a byte with `r`. -/
def Params.touches (c : Params) (k : RegionKind) (r : Range) : Bool :=
  c.regions.any fun g => decide (g.kind = k) && g.range.overlaps r

/-- Does the platform admit a read of the byte at `a` (R61, R70). -/
def Params.admitsRead (c : Params) (a : Nat) : Bool := decide (a < 2 ^ c.addrW) && !c.touches .noReads ⟨a, 1⟩

/-- Does the platform admit a write of the byte at `a` (R61, R70). -/
def Params.admitsWrite (c : Params) (a : Nat) : Bool := decide (a < 2 ^ c.addrW) && !c.touches .noWrites ⟨a, 1⟩

/-! ### Free values -/

/-- A hidden state nothing is said of (R45, R49, U17), drawn from the free values `d` to `d + 7`. -/
def Hidden.free (d : Nat) : Hidden :=
  { cmdl := Config.freeWord d, srcl := Config.freeWord (d + 1), srclenl := Config.freeWord (d + 2)
    dstl := Config.freeWord (d + 3), dstlenl := Config.freeWord (d + 4), nsampl := Config.freeWord (d + 5)
    pos := Config.freeWord (d + 6), hold := (Config.freeWord (d + 7)).setWidth 4 }

/-! ### The registers of the selected instance -/

/-- Write `PRED` and `INDEX`. -/
def State.setAdp (s : State) (a : Adaptation) : State := { s with dev := { s.dev with adp := a } }

/-- Write `POS` (R45). -/
def State.setPos (s : State) (pos : Nat) : State :=
  { s with dev := { s.dev with hid := { s.dev.hid with pos := BitVec.ofNat 32 pos } } }

/-- Write `HOLD` (R45). -/
def State.setHold (s : State) (code : Code) : State :=
  { s with dev := { s.dev with hid := { s.dev.hid with hold := code } } }

/-- Write one byte of buffer memory. -/
def State.writeByte (s : State) (a : Nat) (v : Byte) : State := { s with mem := s.mem.write a v }

/-- The state a buffer command starts from (41_buffer_ops.md R165): fresh with `C` = 0, the current one with `C` = 1. -/
def State.startAdp (s : State) (cont : Bool) : Adaptation := if cont then s.dev.adp else Adaptation.fresh

/-! ### The end of a command -/

/-- `RESULT <- v`, `ERR <- e`, `BUSY <- 0`. The hidden state exists only while `BUSY` is 1; afterwards it is
unspecified (R45), so it is free. Log entry 8. -/
def State.finish (s : State) (e : ErrCode) (v : Word) : State :=
  { s with dev := { s.dev with result := v, err := e, busy := false, hid := Hidden.free s.draws }
           draws := s.draws + 8 }

/-- `complete(v)` (R183). -/
def State.complete (s : State) (v : Word) : State := s.finish .ok v

/-- The sentinel (10_state.md R38, R182). -/
def sentinel : Word := 0xFFFFFFFF

/-- `fail(E)` (R182): the report, and nothing else. -/
def State.fail (s : State) (e : ErrCode) : State := s.finish e sentinel

end Sys2Proof.Machine
end

