-- ==== Sys2Proof/Machine/Operands.lean ====
section
/-! DEFINITION. Where operands come from: the register window (10_state.md R35), the latching of the operand registers
(R45), PCM samples and ADPCM codes in buffer memory (20_memory.md R62, R63). -/
namespace Sys2Proof.Machine

/-- The registers of the window (R35). -/
inductive Reg where
  | cmd | status | result | pred | index | src | srclen | dst | dstlen | nsamp
  deriving DecidableEq, Repr

/-- The register at a 4-byte-aligned offset; none at the reserved offsets 0x28 to 0xFC (R35). -/
def Reg.ofOffset (offset : BitVec 8) : Option Reg :=
  match offset.toNat with
  | 0x00 => some .cmd
  | 0x04 => some .status
  | 0x08 => some .result
  | 0x0C => some .pred
  | 0x10 => some .index
  | 0x14 => some .src
  | 0x18 => some .srclen
  | 0x1C => some .dst
  | 0x20 => some .dstlen
  | 0x24 => some .nsamp
  | _ => none

/-- An address register without its bits [31:ADDR_W], which "read as 0 and are ignored" (R39). -/
def Params.addrBits (c : Params) (v : Word) : Word := BitVec.ofNat 32 (v.toNat % 2 ^ c.addrW)

/-- A register as it stands (R30, R31, R35-R39); `CMD` and the reserved offsets read 0. -/
def Instance.regValue (c : Params) (d : Instance) : Option Reg → Word
  | some .cmd => 0
  | some .status => d.statusWord
  | some .result => d.result
  | some .pred => d.adp.pred.signExtend 32
  | some .index => d.adp.index.setWidth 32
  | some .src => c.addrBits d.src
  | some .srclen => d.srclen
  | some .dst => c.addrBits d.dst
  | some .dstlen => d.dstlen
  | some .nsamp => d.nsamp
  | none => 0

/-- The registers a read of which is unspecified while `BUSY` is 1 (R48). -/
def Reg.unspecifiedWhileBusy : Option Reg → Bool
  | some .result => true
  | some .pred => true
  | some .index => true
  | _ => false

/-- Write an operand register (R39); the other registers are read only to the host (R47). -/
def Instance.setOperand (d : Instance) (v : Word) : Option Reg → Instance
  | some .src => { d with src := v }
  | some .srclen => { d with srclen := v }
  | some .dst => { d with dst := v }
  | some .dstlen => { d with dstlen := v }
  | some .nsamp => { d with nsamp := v }
  | _ => d

/-- The registers a write of which sets `OVF` while `BUSY` is 1 (R218). -/
def Reg.guarded : Option Reg → Bool
  | some .cmd => true
  | some .src => true
  | some .srclen => true
  | some .dst => true
  | some .dstlen => true
  | some .nsamp => true
  | _ => false

/-- The latches taken at issue (R45, R216); `POS` and `HOLD` keep their unspecified values. -/
def Instance.latch (c : Params) (d : Instance) (w : Word) : Hidden :=
  { d.hid with cmdl := w, srcl := c.addrBits d.src, srclenl := d.srclen, dstl := c.addrBits d.dst
               dstlenl := d.dstlen, nsampl := d.nsamp }

/-- `MemRead(addr, n)` as a little-endian number (00_scope.md R14). -/
def Memory.readLE (m : Memory) (a : Nat) : Nat → Nat
  | 0 => 0
  | n + 1 => (m.read a).toNat + 256 * Memory.readLE m (a + 1) n

/-- The sample at `a`, low byte first (R62). -/
def Memory.readSample (m : Memory) (a : Nat) : Sample := BitVec.ofNat 16 (m.readLE a 2)

/-- `MemWrite(addr, 2, v)` (00_scope.md R14): the low byte at `a`, the high byte at `a + 1` (R62). -/
def Memory.writeSample (m : Memory) (a : Nat) (v : Sample) : Memory :=
  (m.write a (v.extractLsb' 0 8)).write (a + 1) (v.extractLsb' 8 8)

/-- Write a sample to buffer memory. -/
def State.writeSample (s : State) (a : Nat) (v : Sample) : State := { s with mem := s.mem.writeSample a v }

/-- The high nibble of a byte, the earlier code (R63). -/
def highNibble (b : Byte) : Code := b.extractLsb' 4 4

/-- The low nibble of a byte, the later code (R63). -/
def lowNibble (b : Byte) : Code := b.extractLsb' 0 4

end Sys2Proof.Machine
end

