-- ==== Sys2Proof/Machine/Plan.lean ====
section
/-! DEFINITION. What a buffer command will do, worked out from its latched operands before any access: the checks and
their order (60_exceptions.md R184), the ranges (20_memory.md R69, R77), and when it is refused or stuck (R186-R188). -/
namespace Sys2Proof.Machine

/-- A buffer command whose checks pass: how many samples, what it reads and what it writes. -/
structure Plan where
  samples : Nat
  read : Range
  write : Range
  deriving DecidableEq, Repr

/-- The range check both buffer commands end with (R69): RANGE unless both ranges stay below `2^ADDR_W`. -/
def Plan.checked (c : Params) (p : Plan) : Except ErrCode Plan :=
  if p.read.fits c.addrW && p.write.fits c.addrW then .ok p else .error .range

/-- `ceil(n / 2)` (00_scope.md R13). -/
def halfUp (n : Nat) : Nat := (n + 1) >>> 1

/-- The ranges of ENCB (41_buffer_ops.md R150). -/
def encbRanges (h : Hidden) : Plan :=
  { samples := h.srclenl.toNat >>> 1
    read := ⟨h.srcl.toNat, h.srclenl.toNat⟩
    write := ⟨h.dstl.toNat, halfUp (h.srclenl.toNat >>> 1)⟩ }

/-- ENCB's checks (R150, R151), on exact integers: FRAMING, DST_SHORT, RANGE, in this order (R184). -/
def encbPlan (c : Params) (h : Hidden) : Except ErrCode Plan :=
  if h.srclenl.toNat % 2 = 1 then .error .framing
  else if h.dstlenl.toNat < (encbRanges h).write.len then .error .dstShort
  else (encbRanges h).checked c

/-- The ranges of DECB (R160). -/
def decbRanges (h : Hidden) : Plan :=
  { samples := h.nsampl.toNat
    read := ⟨h.srcl.toNat, halfUp h.nsampl.toNat⟩
    write := ⟨h.dstl.toNat, 2 * h.nsampl.toNat⟩ }

/-- DECB's checks (R160, R161): SRC_SHORT, DST_SHORT, RANGE, in this order (R184). -/
def decbPlan (c : Params) (h : Hidden) : Except ErrCode Plan :=
  if h.srclenl.toNat < (decbRanges h).read.len then .error .srcShort
  else if h.dstlenl.toNat < (decbRanges h).write.len then .error .dstShort
  else (decbRanges h).checked c

/-- The plan of the latched command, where it is a buffer command whose checks pass. -/
def commandPlan (c : Params) (h : Hidden) : Option Plan :=
  match decode h.cmdl with
  | .ok (.encb _) => (encbPlan c h).toOption
  | .ok (.decb _) => (decbPlan c h).toOption
  | _ => none

/-- The plan of an instance's running command: "The command's read or write range" (R72) while `BUSY` is 1. -/
def Instance.running (c : Params) (d : Instance) : Option Plan := if d.busy then commandPlan c d.hid else none

/-- Does `p` conflict with a command another instance is running (R196): write ranges overlap, or one's write range
overlaps the other's read range. -/
def Plan.races (p : Plan) : Option Plan → Bool
  | none => false
  | some q => p.write.overlaps q.write || p.write.overlaps q.read || p.read.overlaps q.write

/-- Why a buffer command whose checks pass is refused, if it is: ALIAS (R77, R188), BUFFER_RACE with another instance
(R196), memory with read side effects (R67, U18). -/
def State.planRefusal (s : State) (p : Plan) : Option Refusal :=
  if p.read.overlaps p.write then some .aliased
  else if s.others.any fun d => p.races (d.running s.cfg) then some .bufferRace
  else if s.cfg.touches .sideEffects p.read || s.cfg.touches .sideEffects p.write then some .sideEffects
  else none

/-- Does the platform admit every access of the command: the reads of its read range and the writes of its write range
(R70). -/
def Plan.admitted (c : Params) (p : Plan) : Bool :=
  !c.touches .noReads p.read && !c.touches .noWrites p.write

/-- The instances of the platform. -/
def State.instances (s : State) : List Instance := s.dev :: s.others

/-- Is `a` a byte a running command reads or writes (R72). -/
def State.inRunningRange (s : State) (a : Nat) : Bool :=
  s.instances.any fun d =>
    match d.running s.cfg with
    | none => false
    | some p => p.read.contains a || p.write.contains a

/-- Is `a` a byte a running command writes (R72). -/
def State.inRunningWrite (s : State) (a : Nat) : Bool :=
  s.instances.any fun d =>
    match d.running s.cfg with
    | none => false
    | some p => p.write.contains a

end Sys2Proof.Machine
end

