-- ==== Sys2Proof/Machine/BufferCommands.lean ====
section
/-! DEFINITION. ENCB and DECB (41_buffer_ops.md R140-R168): the checks, then the sample loop with the packer (R141) or
the unpacker (R143), in the access order of 20_memory.md R67. -/
namespace Sys2Proof.Machine

/-- The packer after the encoder step of sample `pos` (R141): an even sample's code waits in `HOLD`, and is written with
a zero low nibble (R145) if it is the last; an odd sample's code completes the byte. -/
def packCode (p : Plan) (pos : Nat) (code : Code) (s : State) : State :=
  if pos % 2 = 0 then
    if pos + 1 = p.samples then (s.setHold code).writeByte (p.write.base + (pos >>> 1)) (code ++ 0#4)
    else s.setHold code
  else s.writeByte (p.write.base + (pos >>> 1)) (s.dev.hid.hold ++ code)

/-- One sample of ENCB's loop (R150). -/
def encbSample (p : Plan) (pos : Nat) (s : State) : State :=
  let r := encodeStep s.cfg s.dev.adp (s.mem.readSample (p.read.base + 2 * pos))
  packCode p pos r.1 ((s.setPos pos).setAdp r.2)

/-- ENCB's loop from sample `pos`, `n` samples to go. -/
def encbLoop (p : Plan) : Nat → Nat → State → State
  | 0, _, s => s
  | n + 1, pos, s => encbLoop p n (pos + 1) (encbSample p pos s)

/-- The unpacker (R143): for an even sample read a byte, take its high nibble and keep its low nibble in `HOLD`; for an
odd one take `HOLD`. -/
def unpackCode (p : Plan) (pos : Nat) (s : State) : Code × State :=
  if pos % 2 = 0 then
    let b := s.mem.read (p.read.base + (pos >>> 1))
    (highNibble b, s.setHold (lowNibble b))
  else (s.dev.hid.hold, s)

/-- One sample of DECB's loop (R160). -/
def decbSample (p : Plan) (pos : Nat) (s : State) : State :=
  let u := unpackCode p pos (s.setPos pos)
  let a := adapt s.cfg s.dev.adp u.1
  (u.2.setAdp a).writeSample (p.write.base + 2 * pos) a.pred

/-- DECB's loop from sample `pos`, `n` samples to go. -/
def decbLoop (p : Plan) : Nat → Nat → State → State
  | 0, _, s => s
  | n + 1, pos, s => decbLoop p n (pos + 1) (decbSample p pos s)

/-- What both buffer commands do with the answer of their checks: a failed check ends the command (R182); a refused one
has no meaning (R186); where the platform does not admit an access the device has no step, so it stays stuck with `BUSY`
1 (R70, R187); else the loop runs from the start state and the command completes with the bytes written (R150, R160).
Log entries 12, 17. -/
def runPlan (plan : Except ErrCode Plan) (cont : Bool) (loop : Plan → State → State) (s : State) :
    Host.Outcome State Fault Refusal :=
  match plan with
  | .error e => .next (s.fail e)
  | .ok p =>
    match s.planRefusal p with
    | some r => .refused r
    | none =>
      if p.admitted s.cfg then
        .next ((loop p (s.setAdp (s.startAdp cont))).complete (BitVec.ofNat 32 p.write.len))
      else .next s

/-- `ENCB` and `ENCB.C` (R150). -/
def execEncb (cont : Bool) (s : State) : Host.Outcome State Fault Refusal :=
  runPlan (encbPlan s.cfg s.dev.hid) cont (fun p => encbLoop p p.samples 0) s

/-- `DECB` and `DECB.C` (R160). -/
def execDecb (cont : Bool) (s : State) : Host.Outcome State Fault Refusal :=
  runPlan (decbPlan s.cfg s.dev.hid) cont (fun p => decbLoop p p.samples 0) s

end Sys2Proof.Machine
end

