-- ==== Sys2Proof/Machine/SampleCommands.lean ====
section
/-! DEFINITION. ENCS and DECS (40_codec_core.md R122, R123). -/
namespace Sys2Proof.Machine

/-- `ENCS s` (R122): one encoder step; `RESULT` is the code, zero-extended. -/
def execEncs (x : Sample) (s : State) : Host.Outcome State Fault Refusal :=
  .next ((s.setAdp (encodeStep s.cfg s.dev.adp x).2).complete ((encodeStep s.cfg s.dev.adp x).1.setWidth 32))

/-- `DECS c` (R123): one decoder step; `RESULT` is the new `predicted_value`, sign-extended. -/
def execDecs (code : Code) (s : State) : Host.Outcome State Fault Refusal :=
  .next ((s.setAdp (adapt s.cfg s.dev.adp code)).complete ((adapt s.cfg s.dev.adp code).pred.signExtend 32))

end Sys2Proof.Machine
end

