-- ==== Sys2Proof/Machine/StateCommands.lean ====
section
/-! DEFINITION. INIT and LDST (40_codec_core.md R120, R121). -/
namespace Sys2Proof.Machine

/-- `INIT` (R120): `PRED <- 0; INDEX <- 0; complete(0)`. -/
def execInit (s : State) : Host.Outcome State Fault Refusal :=
  .next ((s.setAdp Adaptation.fresh).complete 0)

/-- `LDST p, k` (R121): BAD_STATE when `k > 88`, with no change to `PRED` or `INDEX`; else load both. -/
def execLdst (p : Sample) (k : StepIndex) (s : State) : Host.Outcome State Fault Refusal :=
  if 88 < k.toNat then .next (s.fail .badState) else .next ((s.setAdp ⟨p, k⟩).complete 0)

end Sys2Proof.Machine
end

