-- ==== Sys2Proof/Machine/Dispatch.lean ====
section
/-! DEFINITION. One arm per command (30_encoding.md R81). -/
namespace Sys2Proof.Machine

def exec (i : Instr) (s : State) : Host.Outcome State Fault Refusal :=
  match i with
  | .init => Sys2Proof.Machine.execInit s
  | .ldst p k => Sys2Proof.Machine.execLdst p k s
  | .encs x => Sys2Proof.Machine.execEncs x s
  | .decs c => Sys2Proof.Machine.execDecs c s
  | .encb cont => Sys2Proof.Machine.execEncb cont s
  | .decb cont => Sys2Proof.Machine.execDecb cont s

end Sys2Proof.Machine
end

