-- ==== Sys2Proof/Machine/HostPort.lean ====
section
/-! DEFINITION. The host's steps on the selected instance and on the buffer memory, and the reset input
(70_reset_and_hazards.md R210-R218; 10_state.md R35-R39, R47, R48; 20_memory.md R60, R72). -/
namespace Sys2Proof.Machine

/-- An issue (R216): latch the word and the operand registers; `BUSY` 1, `OVF` 0, `ERR` 0. -/
def State.issue (s : State) (w : Word) : State :=
  { s with dev := { s.dev.startBusy with hid := s.dev.latch s.cfg w } }

/-- Why the command just issued is refused at issue, if it is (R188, R196). -/
def State.issueRefusal (s : State) : Option Refusal :=
  match commandPlan s.cfg s.dev.hid with
  | none => none
  | some p => s.planRefusal p

/-- A host write to `CMD` while `BUSY` is 0 (R36, R214): an issue, or its refusal, "before any state change" (R188). -/
def State.hostIssue (s : State) (w : Word) : Host.Outcome State Fault Refusal :=
  match (s.issue w).issueRefusal with
  | some r => .refused r
  | none => .next (s.issue w)

/-- Is the access 32 bits wide and 4-byte aligned (R60). -/
def regAccessOk (offset : BitVec 8) (width : Nat) : Bool := decide (width = 4) && decide (offset.toNat % 4 = 0)

/-- A register write that has its width and alignment (R36, R39, R47, R218). -/
def State.writeReg (s : State) (r : Option Reg) (v : Word) : Host.Outcome State Fault Refusal :=
  if s.dev.busy && Reg.guarded r then .next { s with dev := s.dev.overflow }
  else if r = some .cmd then s.hostIssue v
  else .next { s with dev := s.dev.setOperand v r }

/-- A register read that has its width and alignment (R35, R47); while `BUSY` is 1 a read of `RESULT`, `PRED` or `INDEX`
returns a free value (R48). -/
def State.readReg (s : State) (r : Option Reg) : State :=
  if s.dev.busy && Reg.unspecifiedWhileBusy r then { s with rdata := Config.freeWord s.draws, draws := s.draws + 1 }
  else { s with rdata := s.dev.regValue s.cfg r }

/-- The offset of a bus address in the instance's 256-byte window (R35, R60). -/
def Instance.offsetOf (d : Instance) (addr : Nat) : Option (BitVec 8) :=
  if decide (d.base ≤ addr) && decide (addr < d.base + 256) then some (BitVec.ofNat 8 (addr - d.base)) else none

/-- A host register write at an offset of the window (R60: any other width or alignment is refused). -/
def windowWrite (offset : BitVec 8) (width : Nat) (v : Word) (s : State) : Host.Outcome State Fault Refusal :=
  if regAccessOk offset width then s.writeReg (Reg.ofOffset offset) v else .refused .regAccess

/-- A host register read at an offset of the window (R60). -/
def windowRead (offset : BitVec 8) (width : Nat) (s : State) : Host.Outcome State Fault Refusal :=
  if regAccessOk offset width then .next (s.readReg (Reg.ofOffset offset)) else .refused .regAccess

/-- A host register write at a bus address of the selected instance's window. -/
def hostRegWrite (addr width : Nat) (v : Word) (s : State) : Host.Outcome State Fault Refusal :=
  match s.dev.offsetOf addr with
  | none => .fault .noSuchAddress
  | some offset => windowWrite offset width v s

/-- A host register read at a bus address of the selected instance's window. -/
def hostRegRead (addr width : Nat) (s : State) : Host.Outcome State Fault Refusal :=
  match s.dev.offsetOf addr with
  | none => .fault .noSuchAddress
  | some offset => windowRead offset width s

/-- A host read of one byte of buffer memory. In a running command's write range it returns a free value (R72), whatever
the platform admits there. -/
def hostMemRead (a : Nat) (s : State) : Host.Outcome State Fault Refusal :=
  if s.inRunningWrite a then
    .next { s with rdata := ((Config.freeWord s.draws).setWidth 8).setWidth 32, draws := s.draws + 1 }
  else if !s.cfg.admitsRead a then .fault .noSuchAddress
  else if s.cfg.touches .sideEffects ⟨a, 1⟩ then .refused .sideEffects
  else .next { s with rdata := (s.mem.read a).setWidth 32 }

/-- A host write of one byte of buffer memory. Into a running command's ranges it is refused (R72, R186), whatever the
platform admits there. -/
def hostMemWrite (a : Nat) (v : Byte) (s : State) : Host.Outcome State Fault Refusal :=
  if s.inRunningRange a then .refused .bufferRace
  else if !s.cfg.admitsWrite a then .fault .noSuchAddress
  else if s.cfg.touches .sideEffects ⟨a, 1⟩ then .refused .sideEffects
  else .next (s.writeByte a v)

/-- What reset does to buffer memory: nothing when idle (R210); while `BUSY` is 1 every byte of the abandoned command's
write range is free (R211). Log entry 10. -/
def State.abandonWrites (s : State) : State :=
  match s.dev.running s.cfg with
  | none => s
  | some p => { s with mem := s.mem.scramble p.write.base s.draws p.write.len, draws := s.draws + p.write.len }

/-- The reset input (R210): every register takes its reset value; the hidden state is unspecified (R49). -/
def State.resetRegisters (s : State) : State :=
  { s with dev := Instance.resetWith s.dev.base (Hidden.free s.draws), draws := s.draws + 8 }

/-- The reset of the selected instance (R210, R211). -/
def hostReset (s : State) : Host.Outcome State Fault Refusal := .next s.abandonWrites.resetRegisters

end Sys2Proof.Machine
end

