-- ==== Sys2Proof/Machine/Device.lean ====
section
/-! DEFINITION. The turns of the agents (70_reset_and_hazards.md R213, R217; 60_exceptions.md R196). -/
namespace Sys2Proof.Machine

/-- The device step (R217): decode `CMDL` and run its rule; an ILLEGAL word fails (30_encoding.md R84). -/
def deviceStep (s : State) : Host.Outcome State Fault Refusal :=
  match decode s.dev.hid.cmdl with
  | .error _ => .next (s.fail .illegal)
  | .ok i => exec i s

/-- The device's turn: a step while `BUSY` is 1, and nothing when idle (R195, R217). -/
def deviceTurn (s : State) : Host.Outcome State Fault Refusal := if s.dev.busy then deviceStep s else .next s

/-- Exchange the selected instance with entry `j` of the others. -/
def State.swap (s : State) (j : Nat) : State :=
  match s.others[j]? with
  | none => s
  | some d => { s with dev := d, others := s.others.set j s.dev }

/-- Exchange back after a step that goes on. -/
def swapBack (j : Nat) : Host.Outcome State Fault Refusal → Host.Outcome State Fault Refusal
  | .next s => .next (s.swap j)
  | .fault r => .fault r
  | .refused r => .refused r

/-- Do `f` on instance `k`: 0 is the selected one, `j + 1` is entry `j` of the others (R196). Log entry 18. -/
def onInstance (k : Nat) (f : State → Host.Outcome State Fault Refusal) (s : State) :
    Host.Outcome State Fault Refusal :=
  match k with
  | 0 => f s
  | j + 1 => if j < s.others.length then swapBack j (f (s.swap j)) else .fault .noSuchInstance

/-- Which instance's window holds a bus address: 0 is the selected one, `j + 1` is entry `j` of the others (R60, R196).
An access goes by the address of its first byte: one that starts below a window and reaches into it is no access to that
window. DESIGN CHOICE: the spec does not say. Log entry 27. -/
def State.windowAt (s : State) (addr : Nat) : Option Nat :=
  s.instances.findIdx? fun d => (d.offsetOf addr).isSome

/-- A register access on the instance whose window holds the address; an address in no window reaches no block. -/
def onWindow (addr : Nat) (f : State → Host.Outcome State Fault Refusal) (s : State) :
    Host.Outcome State Fault Refusal :=
  match s.windowAt addr with
  | none => .fault .noSuchAddress
  | some k => onInstance k f s

/-- One host step (R213), or the reset input (R210). -/
def hostTurn (a : HostAction) (s : State) : Host.Outcome State Fault Refusal :=
  match a with
  | .regRead addr width => onWindow addr (hostRegRead addr width) s
  | .regWrite addr width v => onWindow addr (hostRegWrite addr width v) s
  | .memRead a => hostMemRead a s
  | .memWrite a v => hostMemWrite a v s
  | .reset k => onInstance k hostReset s

/-- One turn. -/
def takeTurn (t : Turn) (s : State) : Host.Outcome State Fault Refusal :=
  match t with
  | .device k => onInstance k deviceTurn s
  | .host a => hostTurn a s

/-- One step: the head of the agenda moves; with an empty agenda the selected device does. Log entry 1. -/
def nextTurn (s : State) : Host.Outcome State Fault Refusal :=
  match s.agenda with
  | [] => deviceTurn s
  | t :: rest => takeTurn t { s with agenda := rest }

/-- Make the device of the selected instance the next to move. -/
def State.deviceFirst (s : State) : State :=
  match s.agenda with
  | [] => s
  | _ :: _ => { s with agenda := .device 0 :: s.agenda }

/-- Stands for the host's write of a command word to `CMD` (R36, R216): the word and the operand registers latched,
`BUSY` 1, and the device next to move. Log entry 2. -/
def State.loadCommand (s : State) (w : Word) : State := (s.issue w).deviceFirst

end Sys2Proof.Machine
end

