-- ==== Sys2Proof/Machine/Step.lean ====
section
/-! DEFINITION. The step of the platform (70_reset_and_hazards.md R213), and how the host's checks place a command. -/
namespace Sys2Proof.Machine

/-- One step of one agent. -/
def step : State → Host.Outcome State Fault Refusal := nextTurn

/-- `s` with the command word `w` latched, so that the next step runs it: the block fetches nothing (10_state.md R33), a
command comes from the host's write to `CMD` (R36, R216). Log entry 2. -/
def State.withFetchWord (s : State) (nbits w : Nat) : State := s.loadCommand (BitVec.ofNat 32 (w % 2 ^ nbits))

end Sys2Proof.Machine
end

