-- ==== Sys2Proof/Machine/Stream.lean ====
section
/-! DEFINITION. The codec as functions of whole sequences: the streams of samples and codes (40_codec_core.md R108,
R109) and the packing of codes into bytes (41_buffer_ops.md R140, R142). The commands do not use them; claims about ENCB
and DECB are stated against them. -/
namespace Sys2Proof.Machine

/-- The codes an encoder started in `a` emits for the samples, in order (R108). -/
def encodeCodes (c : Params) : Adaptation → List Sample → List Code
  | _, [] => []
  | a, x :: xs => (encodeStep c a x).1 :: encodeCodes c (encodeStep c a x).2 xs

/-- The states the encoder holds after each sample. -/
def encodeStates (c : Params) : Adaptation → List Sample → List Adaptation
  | _, [] => []
  | a, x :: xs => (encodeStep c a x).2 :: encodeStates c (encodeStep c a x).2 xs

/-- The state the encoder ends in. -/
def encodeEnd (c : Params) : Adaptation → List Sample → Adaptation
  | a, [] => a
  | a, x :: xs => encodeEnd c (encodeStep c a x).2 xs

/-- The states the decoder holds after each code (R108); it emits their `predicted_value`. -/
def decodeStates (c : Params) : Adaptation → List Code → List Adaptation
  | _, [] => []
  | a, x :: xs => adapt c a x :: decodeStates c (adapt c a x) xs

/-- The samples the decoder emits (R108). -/
def decodeSamples (c : Params) (a : Adaptation) (codes : List Code) : List Sample :=
  (decodeStates c a codes).map Adaptation.pred

/-- The state the decoder ends in. -/
def decodeEnd (c : Params) (a : Adaptation) (codes : List Code) : Adaptation := codes.foldl (adapt c) a

/-- Packing (R140): the earlier code in the high nibble, a zero low nibble after an odd last code (R145). -/
def pack : List Code → List Byte
  | [] => []
  | [x] => [x ++ 0#4]
  | x :: y :: rest => (x ++ y) :: pack rest

/-- Code `i` of a packed sequence (R142): the high nibble of byte `i >> 1` when `i` is even, the low one when odd. -/
def codeOfByte (i : Nat) (b : Byte) : Code := if i % 2 = 0 then highNibble b else lowNibble b

/-- Unpacking `n` codes (R142). -/
def unpack (n : Nat) (bytes : List Byte) : List Code :=
  (List.range n).map fun i => codeOfByte i (bytes.getD (i >>> 1) 0)

/-- The `n` samples of the PCM buffer at `base` (20_memory.md R62). -/
def Memory.samplesAt (m : Memory) (base n : Nat) : List Sample :=
  (List.range n).map fun k => m.readSample (base + 2 * k)

/-- The `n` codes of the ADPCM buffer at `base` (R63). -/
def Memory.codesAt (m : Memory) (base n : Nat) : List Code :=
  (List.range n).map fun k => codeOfByte k (m.read (base + (k >>> 1)))

end Sys2Proof.Machine
end

