-- ==== Sys2Proof/Safety.lean ====
section
/-! DEFINITION. The terms claims are stated in: the invariant of the machine, what the constant tables must satisfy, and
what a command leaves alone. -/
namespace Sys2Proof.Machine

/-- An instance in a state the spec allows: `INDEX` in [0, 88] (10_state.md R32); `ERR` 0 while a command is in progress
(R37); a running buffer command's ranges do not overlap (20_memory.md R77, 60_exceptions.md R188). -/
structure Instance.Legal (c : Params) (d : Instance) : Prop where
  index_le : d.adp.index.toNat ≤ 88
  err_ok : d.busy = true → d.err = .ok
  not_aliased : ∀ p, d.running c = some p → p.read.overlaps p.write = false

/-- The invariant: the memory is in canonical form and within the address space (20_memory.md R61), and every instance
is legal. -/
structure State.Inv (s : State) : Prop where
  mem_wf : s.mem.wf
  mem_lt : ∀ x ∈ s.mem, x.1 < 2 ^ s.cfg.addrW
  legal : ∀ d ∈ s.instances, d.Legal s.cfg

/-- What 00_scope.md R8 asks of `STEP_TABLE`: 89 positive entries, monotonically increasing, the first below 8.
DESIGN CHOICE: "monotonically increasing" is read as never decreasing, since R8 and R40 do not say whether it is strict.
Log entry 28. -/
def Params.StepTableLegal (c : Params) : Prop :=
  c.stepTable.length = 89 ∧ (∀ v ∈ c.stepTable, 0 < v) ∧ c.stepTable.Pairwise (· ≤ ·) ∧
    ∀ v, c.stepTable[0]? = some v → v < 8

/-- What 00_scope.md R9 asks of `INDEX_TABLE`: 16 entries, the one of code 0 not positive, the one of code 7
positive. -/
def Params.IndexTableLegal (c : Params) : Prop :=
  c.indexTable.length = 16 ∧ (∀ v, c.indexTable[0]? = some v → v ≤ 0) ∧ ∀ v, c.indexTable[7]? = some v → 0 < v

/-- The two instances agree on the operand registers, `OVF` and the place of the window, which no command writes
(10_state.md R39). -/
structure Instance.SameOperands (d e : Instance) : Prop where
  base : e.base = d.base
  ovf : e.ovf = d.ovf
  src : e.src = d.src
  srclen : e.srclen = d.srclen
  dst : e.dst = d.dst
  dstlen : e.dstlen = d.dstlen
  nsamp : e.nsamp = d.nsamp

/-- The two states agree on all that no command touches, whatever it does to memory and to its own registers. -/
structure State.SameAround (s t : State) : Prop where
  operands : s.dev.SameOperands t.dev
  others : t.others = s.others
  cfg : t.cfg = s.cfg
  agenda : t.agenda = s.agenda
  rdata : t.rdata = s.rdata

/-- Every byte of memory reads as before. -/
def State.SameMemory (s t : State) : Prop := ∀ a, t.mem.read a = s.mem.read a

/-- Every byte of memory outside the range reads as before. -/
def State.SameOutside (s t : State) (base len : Nat) : Prop :=
  ∀ a, a < base ∨ base + len ≤ a → t.mem.read a = s.mem.read a

/-- `t` is `s` with a command completed by `complete(v)` (60_exceptions.md R183), the Adaptation State being `a`. -/
structure State.Completed (s t : State) (a : Adaptation) (v : Word) : Prop where
  adp : t.dev.adp = a
  result : t.dev.result = v
  err : t.dev.err = .ok
  busy : t.dev.busy = false
  around : s.SameAround t

/-- `t` is `s` with a command ended by `fail(e)` (60_exceptions.md R182): the report, and nothing else. -/
structure State.Failed (s t : State) (e : ErrCode) : Prop where
  adp : t.dev.adp = s.dev.adp
  result : t.dev.result = 0xFFFFFFFF
  err : t.dev.err = e
  busy : t.dev.busy = false
  around : s.SameAround t
  mem : t.mem = s.mem

/-- `a` is one of the bytes of the range. -/
def Range.Has (r : Range) (a : Nat) : Prop := r.base ≤ a ∧ a < r.base + r.len

/-- The range is empty or stays below the top of the address space (20_memory.md R69). -/
def Range.Below (r : Range) (addrW : Nat) : Prop := r.len = 0 ∨ r.base + r.len ≤ 2 ^ addrW

/-- Nothing stands in the way of a command that reads the bytes of `r` and writes those of `w`: the ranges share no byte
(20_memory.md R77), no other instance runs a command that conflicts with them (60_exceptions.md R196), and every byte is
free of read side effects and admits its access (20_memory.md R67, R70). -/
structure State.Clear (s : State) (r w : Range) : Prop where
  apart : ∀ a, ¬(r.Has a ∧ w.Has a)
  no_race : ∀ d ∈ s.others, ∀ q, d.running s.cfg = some q →
    ∀ a, ¬(w.Has a ∧ q.write.Has a) ∧ ¬(w.Has a ∧ q.read.Has a) ∧ ¬(r.Has a ∧ q.write.Has a)
  plain : ∀ g ∈ s.cfg.regions, ∀ a, g.range.Has a → (g.kind ≠ .noWrites → ¬r.Has a) ∧ (g.kind ≠ .noReads → ¬w.Has a)

/-- The latched operands of an ENCB of the `n` samples at `src` into the bytes at `dst`, which have room
(41_buffer_ops.md R150). -/
structure State.EncbOperands (s : State) (src n dst : Nat) : Prop where
  source : s.dev.hid.srcl.toNat = src
  length : s.dev.hid.srclenl.toNat = 2 * n
  dest : s.dev.hid.dstl.toNat = dst
  room : (n + 1) / 2 ≤ s.dev.hid.dstlenl.toNat

/-- The latched operands of a DECB of the `n` codes at `src`, which are there, into the samples at `dst`, which have room
(41_buffer_ops.md R160). -/
structure State.DecbOperands (s : State) (src n dst : Nat) : Prop where
  source : s.dev.hid.srcl.toNat = src
  count : s.dev.hid.nsampl.toNat = n
  length : (n + 1) / 2 ≤ s.dev.hid.srclenl.toNat
  dest : s.dev.hid.dstl.toNat = dst
  room : 2 * n ≤ s.dev.hid.dstlenl.toNat

/-- `t` has the memory, the parameters and the other instances of `s`. -/
structure State.SamePlatform (s t : State) : Prop where
  mem : t.mem = s.mem
  cfg : t.cfg = s.cfg
  others : t.others = s.others

/-- The bus address is in the instance's 256-byte register window (10_state.md R35). -/
def Instance.InWindow (d : Instance) (addr : Nat) : Prop := d.base ≤ addr ∧ addr < d.base + 256

/-- The turn is one of the selected instance: its device's, its reset, or a register access in its window. -/
def State.TurnOfSelected (s : State) : Turn → Prop
  | .device k => k = 0
  | .host (.reset k) => k = 0
  | .host (.regRead addr _) => s.dev.InWindow addr
  | .host (.regWrite addr _ _) => s.dev.InWindow addr
  | .host (.memRead _) => False
  | .host (.memWrite _ _) => False

/-- The bus address is in the window of entry `j` of the others, and in no window the platform looks at before that one
(log entry 5). -/
def State.InWindowOf (s : State) (j addr : Nat) : Prop :=
  (∃ d, s.others[j]? = some d ∧ d.InWindow addr) ∧ ¬s.dev.InWindow addr ∧
    ∀ i d, i < j → s.others[i]? = some d → ¬d.InWindow addr

/-- The turn is one of entry `j` of the others. -/
def State.TurnOfOther (s : State) (j : Nat) : Turn → Prop
  | .device k => k = j + 1
  | .host (.reset k) => k = j + 1
  | .host (.regRead addr _) => s.InWindowOf j addr
  | .host (.regWrite addr _ _) => s.InWindowOf j addr
  | .host (.memRead _) => False
  | .host (.memWrite _ _) => False

/-- The turn of another instance, as the selected instance would take it. -/
def Turn.ofSelected : Turn → Turn
  | .device _ => .device 0
  | .host (.reset _) => .host (.reset 0)
  | x => x

end Sys2Proof.Machine
end

