-- ==== Sys2Proof/Certificates/Slice0/Obligations.lean ====
section
/-! DEFINITION. The statements for the provers. -/

open Sys2Proof Sys2Proof.Machine

/-! ### Encoding (30_encoding.md) -/

/-- R83, R87: the decoder gives back every command from its word. -/
def Obligations.DecodeOfEncode : Prop := ∀ i : Instr, decode (encode i) = .ok i

/-- R83, R86: a word that decodes to a command is the word of that command, so no bit is ignored. -/
def Obligations.EncodeOfDecode : Prop := ∀ (w : Word) (i : Instr), decode w = .ok i → encode i = w

/-- R82, R83: "A word `w` spells command `X` exactly when `(w & mask_X) = match_X`", and its operands are its fields. -/
def Obligations.WordSpellsItsRow : Prop :=
  ∀ w : Word,
    (w &&& 0xFFFFFFFF = 0x00000001 ↔ decode w = .ok .init) ∧
    (w &&& 0x000080FF = 0x00000002 ↔ decode w = .ok (.ldst (w.extractLsb' 16 16) (w.extractLsb' 8 7))) ∧
    (w &&& 0x0000FFFF = 0x00000003 ↔ decode w = .ok (.encs (w.extractLsb' 16 16))) ∧
    (w &&& 0xFFFFF0FF = 0x00000004 ↔ decode w = .ok (.decs (w.extractLsb' 8 4))) ∧
    (w &&& 0xFFFFFFEF = 0x00000005 ↔ decode w = .ok (.encb (w.getLsbD 4))) ∧
    (w &&& 0xFFFFFFEF = 0x00000006 ↔ decode w = .ok (.decb (w.getLsbD 4)))

/-- R84: a word whose `OP` is 0x0 or 0x7 to 0xF is illegal; a latched word that matches no row completes with `ILLEGAL`,
the sentinel, and no other change; a word of LDST with an index above 88 is a legal spelling that fails with `BAD_STATE`.
-/
def Obligations.IllegalWordFails : Prop :=
  (∀ w : Word, (w.extractLsb' 0 4).toNat = 0 ∨ 7 ≤ (w.extractLsb' 0 4).toNat →
    decode w = .error (.illegalOp (w.extractLsb' 0 4))) ∧
  (∀ (s : State) (rest : List Turn), s.agenda = .device 0 :: rest → s.dev.busy = true →
    s.dev.hid.cmdl &&& 0xFFFFFFFF ≠ 0x00000001 → s.dev.hid.cmdl &&& 0x000080FF ≠ 0x00000002 →
    s.dev.hid.cmdl &&& 0x0000FFFF ≠ 0x00000003 → s.dev.hid.cmdl &&& 0xFFFFF0FF ≠ 0x00000004 →
    s.dev.hid.cmdl &&& 0xFFFFFFEF ≠ 0x00000005 → s.dev.hid.cmdl &&& 0xFFFFFFEF ≠ 0x00000006 →
    ∃ t, step s = .next t ∧ State.Failed { s with agenda := rest } t .illegal) ∧
  ∀ (s : State) (w : Word) (rest : List Turn), s.agenda = .device 0 :: rest → s.dev.busy = true →
    s.dev.hid.cmdl = w → w &&& 0x000080FF = 0x00000002 → 88 < (w.extractLsb' 8 7).toNat →
    ∃ t, step s = .next t ∧ State.Failed { s with agenda := rest } t .badState

/-- 95_test_vectors.md section 2: a word of each row, and words that are ILLEGAL. -/
def Obligations.WordsOfTheTestVectors : Prop :=
  decode 0x00000001 = .ok .init ∧ decode 0xFFED1002 = .ok (.ldst (BitVec.ofInt 16 (-19)) 16) ∧
  decode 0x03E80003 = .ok (.encs 1000) ∧ decode 0x00000F04 = .ok (.decs 0xF) ∧
  decode 0x00000015 = .ok (.encb true) ∧ decode 0x00000006 = .ok (.decb false) ∧
  decode 0x00000000 = .error (.illegalOp 0) ∧ decode 0x00000025 = .error (.fixedBitSet 5)

/-- R87: the words of the assembler's lines, and that an operand outside its range is rejected. -/
def Obligations.AssemblerWords : Prop :=
  (∀ p k : Int, -32768 ≤ p → p ≤ 32767 → 0 ≤ k → k ≤ 127 →
    ∃ w, assemble (.ldst p k) = some w ∧ (w.toNat : Int) = (p % 65536) * 65536 + k * 256 + 2) ∧
  (∀ x : Int, -32768 ≤ x → x ≤ 32767 →
    ∃ w, assemble (.encs x) = some w ∧ (w.toNat : Int) = (x % 65536) * 65536 + 3) ∧
  (∀ c : Int, 0 ≤ c → c ≤ 15 → ∃ w, assemble (.decs c) = some w ∧ (w.toNat : Int) = c * 256 + 4) ∧
  assemble .init = some 0x00000001 ∧
  assemble (.encb false) = some 0x00000005 ∧ assemble (.encb true) = some 0x00000015 ∧
  assemble (.decb false) = some 0x00000006 ∧ assemble (.decb true) = some 0x00000016 ∧
  (∀ p k : Int, p < -32768 ∨ 32767 < p ∨ k < 0 ∨ 127 < k → assemble (.ldst p k) = none) ∧
  (∀ x : Int, x < -32768 ∨ 32767 < x → assemble (.encs x) = none) ∧
  ∀ c : Int, c < 0 ∨ 15 < c → assemble (.decs c) = none

/-! ### The step (70_reset_and_hazards.md) -/

/-- R217: with `BUSY` 1 and the device next to move, the step is the latched command's meaning. That the device moves when
the agenda is empty is the model's choice, log entry 1. -/
def Obligations.StepRunsTheLatchedCommand : Prop :=
  (∀ (s : State) (i : Instr), s.agenda = [] → s.dev.busy = true → decode s.dev.hid.cmdl = .ok i →
    step s = exec i s) ∧
  ∀ (s : State) (i : Instr) (rest : List Turn), s.agenda = .device 0 :: rest → s.dev.busy = true →
    decode s.dev.hid.cmdl = .ok i → step s = exec i { s with agenda := rest }

/-- R195: "when idle it does nothing and keeps its state". That nothing happens when the agenda is empty and the device is
idle is the model's choice, log entry 1. -/
def Obligations.IdleDeviceKeepsItsState : Prop :=
  (∀ s : State, s.agenda = [] → s.dev.busy = false → step s = .next s) ∧
  ∀ (s : State) (rest : List Turn), s.agenda = .device 0 :: rest → s.dev.busy = false →
    step s = .next { s with agenda := rest }

/-- The host's placing of a command word is an issue (R216), and the very next step is the command's meaning. The
model's convention, log entry 2. -/
def Obligations.PlacedCommandRuns : Prop :=
  ∀ (s : State) (i : Instr), step (s.withFetchWord 32 (encode i).toNat) = exec i (s.issue (encode i))

/-- R180: no command ever faults, whatever the state. -/
def Obligations.CommandsNeverFault : Prop :=
  ∀ (i : Instr) (s : State) (r : Fault), exec i s ≠ .fault r

/-- R217, R187: a command that is not refused ends with `BUSY` 0, or the device is stuck; only a buffer command can be
stuck or refused. That the stuck device answers its state unchanged is the model's reading (log entry 12), and the refusal
`sideEffects` is the model's own (log entry 14). -/
def Obligations.CommandEndsOrIsStuck : Prop :=
  ∀ (i : Instr) (s : State),
    (∃ t, exec i s = .next t ∧ t.dev.busy = false) ∨
    ((i.mnemonic = .encb ∨ i.mnemonic = .decb) ∧
      (exec i s = .next s ∨ exec i s = .refused .aliased ∨ exec i s = .refused .bufferRace ∨
        exec i s = .refused .sideEffects))

/-! ### The commands (40_codec_core.md, 41_buffer_ops.md): where each completes -/

/-- R120: INIT, from every state; a word with `OP` 0x1 and any other bit set is ILLEGAL. -/
def Obligations.InitLoadsTheFreshState : Prop :=
  (∀ w : Word, w.extractLsb' 0 4 = 0x1#4 →
    decode w = if w = 0x00000001 then .ok .init else .error (.fixedBitSet 0x1)) ∧
  ∀ s : State, ∃ t, exec .init s = .next t ∧ s.Completed t ⟨0, 0⟩ 0 ∧ t.mem = s.mem

/-- R121: LDST completes exactly for an index up to 88; `p` is `w[31:16]` and `k` is `w[14:8]`, and a word with `OP` 0x2
and bit 15 or a bit of [7:4] set is ILLEGAL. -/
def Obligations.LdstLoadsOrFails : Prop :=
  (∀ w : Word, w.extractLsb' 0 4 = 0x2#4 →
    decode w = if w.getLsbD 15 = false ∧ w.extractLsb' 4 4 = 0#4
      then .ok (.ldst (w.extractLsb' 16 16) (w.extractLsb' 8 7)) else .error (.fixedBitSet 0x2)) ∧
  ∀ (s : State) (p : Sample) (k : StepIndex),
    (k.toNat ≤ 88 → ∃ t, exec (.ldst p k) s = .next t ∧ s.Completed t ⟨p, k⟩ 0 ∧ t.mem = s.mem) ∧
    (88 < k.toNat → ∃ t, exec (.ldst p k) s = .next t ∧ s.Failed t .badState)

/-- R122: ENCS, from every state and for every sample `w[31:16]`; a word with `OP` 0x3 and a bit of [15:4] set is
ILLEGAL. -/
def Obligations.EncsEncodesOneSample : Prop :=
  (∀ w : Word, w.extractLsb' 0 4 = 0x3#4 →
    decode w = if w.extractLsb' 4 12 = 0#12 then .ok (.encs (w.extractLsb' 16 16)) else .error (.fixedBitSet 0x3)) ∧
  ∀ (s : State) (x : Sample) (code : Code),
    code = quantize x.toInt s.dev.adp.pred.toInt (s.cfg.step s.dev.adp.index) →
    ∃ t, exec (.encs x) s = .next t ∧ s.Completed t (adapt s.cfg s.dev.adp code) (BitVec.ofNat 32 code.toNat) ∧
      t.mem = s.mem

/-- R123: DECS, from every state and for every code `w[11:8]`; the result is the new prediction, sign-extended; a word
with `OP` 0x4 and a bit of [31:12] or [7:4] set is ILLEGAL. -/
def Obligations.DecsDecodesOneCode : Prop :=
  (∀ w : Word, w.extractLsb' 0 4 = 0x4#4 →
    decode w = if w.extractLsb' 12 20 = 0#20 ∧ w.extractLsb' 4 4 = 0#4
      then .ok (.decs (w.extractLsb' 8 4)) else .error (.fixedBitSet 0x4)) ∧
  ∀ (s : State) (c : Code),
    ∃ t, exec (.decs c) s = .next t ∧
      s.Completed t (adapt s.cfg s.dev.adp c) (BitVec.ofInt 32 (adapt s.cfg s.dev.adp c).pred.toInt) ∧ t.mem = s.mem

/-- R150, R153: ENCB and ENCB.C, whenever the checks pass and nothing stands in the way. The bytes written are the
packed codes of the samples that stood in the source, from the start state; every other byte reads as before. -/
def Obligations.EncbEncodesTheBuffer : Prop :=
  ∀ (s : State) (cont : Bool) (src r dst n need : Nat) (a : Adaptation) (xs : List Sample),
    s.mem.wf →
    src = s.dev.hid.srcl.toNat → r = s.dev.hid.srclenl.toNat → dst = s.dev.hid.dstl.toNat →
    r = 2 * n → need = (n + 1) / 2 → need ≤ s.dev.hid.dstlenl.toNat →
    Range.Below ⟨src, r⟩ s.cfg.addrW → Range.Below ⟨dst, need⟩ s.cfg.addrW → s.Clear ⟨src, r⟩ ⟨dst, need⟩ →
    a = (if cont then s.dev.adp else ⟨0, 0⟩) → xs = s.mem.samplesAt src n →
    ∃ t, exec (.encb cont) s = .next t ∧
      s.Completed t (encodeEnd s.cfg a xs) (BitVec.ofNat 32 need) ∧
      (∀ j, j < need → (pack (encodeCodes s.cfg a xs))[j]? = some (t.mem.read (dst + j))) ∧
      s.SameOutside t dst need

/-- R160, R162: DECB and DECB.C, whenever the checks pass and nothing stands in the way. The samples written are those
the decoder emits for the codes that stood in the source; every other byte reads as before. -/
def Obligations.DecbDecodesTheBuffer : Prop :=
  ∀ (s : State) (cont : Bool) (src dst n : Nat) (a : Adaptation) (codes : List Code),
    s.mem.wf →
    src = s.dev.hid.srcl.toNat → n = s.dev.hid.nsampl.toNat → dst = s.dev.hid.dstl.toNat →
    (n + 1) / 2 ≤ s.dev.hid.srclenl.toNat → 2 * n ≤ s.dev.hid.dstlenl.toNat →
    Range.Below ⟨src, (n + 1) / 2⟩ s.cfg.addrW → Range.Below ⟨dst, 2 * n⟩ s.cfg.addrW →
    s.Clear ⟨src, (n + 1) / 2⟩ ⟨dst, 2 * n⟩ →
    a = (if cont then s.dev.adp else ⟨0, 0⟩) → codes = s.mem.codesAt src n →
    ∃ t, exec (.decb cont) s = .next t ∧
      s.Completed t (decodeEnd s.cfg a codes) (BitVec.ofNat 32 (2 * n)) ∧
      t.mem.samplesAt dst n = decodeSamples s.cfg a codes ∧
      s.SameOutside t dst (2 * n)

/-- R150, R184: ENCB's checks, in their order, each ending in a failure that changes nothing. -/
def Obligations.EncbChecksInOrder : Prop :=
  ∀ (s : State) (cont : Bool) (src r dst need : Nat),
    src = s.dev.hid.srcl.toNat → r = s.dev.hid.srclenl.toNat → dst = s.dev.hid.dstl.toNat →
    need = (r / 2 + 1) / 2 →
    (r % 2 = 1 → ∃ t, exec (.encb cont) s = .next t ∧ s.Failed t .framing) ∧
    (r % 2 = 0 → s.dev.hid.dstlenl.toNat < need → ∃ t, exec (.encb cont) s = .next t ∧ s.Failed t .dstShort) ∧
    (r % 2 = 0 → need ≤ s.dev.hid.dstlenl.toNat →
      ¬(Range.Below ⟨src, r⟩ s.cfg.addrW ∧ Range.Below ⟨dst, need⟩ s.cfg.addrW) →
      ∃ t, exec (.encb cont) s = .next t ∧ s.Failed t .range)

/-- R160, R184: DECB's checks, in their order, each ending in a failure that changes nothing. -/
def Obligations.DecbChecksInOrder : Prop :=
  ∀ (s : State) (cont : Bool) (src dst n : Nat),
    src = s.dev.hid.srcl.toNat → n = s.dev.hid.nsampl.toNat → dst = s.dev.hid.dstl.toNat →
    (s.dev.hid.srclenl.toNat < (n + 1) / 2 → ∃ t, exec (.decb cont) s = .next t ∧ s.Failed t .srcShort) ∧
    ((n + 1) / 2 ≤ s.dev.hid.srclenl.toNat → s.dev.hid.dstlenl.toNat < 2 * n →
      ∃ t, exec (.decb cont) s = .next t ∧ s.Failed t .dstShort) ∧
    ((n + 1) / 2 ≤ s.dev.hid.srclenl.toNat → 2 * n ≤ s.dev.hid.dstlenl.toNat →
      ¬(Range.Below ⟨src, (n + 1) / 2⟩ s.cfg.addrW ∧ Range.Below ⟨dst, 2 * n⟩ s.cfg.addrW) →
      ∃ t, exec (.decb cont) s = .next t ∧ s.Failed t .range)

/-- R152, R162, R182: a command that ends with an error has changed nothing but its report. The premise `ERR` = 0 is
part of the invariant (R37: 0 while a command is in progress). -/
def Obligations.FailedCommandChangesNothing : Prop :=
  ∀ (i : Instr) (s t : State), s.dev.err = .ok → exec i s = .next t → t.dev.err ≠ .ok → s.Failed t t.dev.err

/-- R188, R77: a buffer command whose checks pass and whose ranges share a byte is refused when it is issued. That it is
refused again when it is run, where R150 and R160 write the check, and as ALIAS before any other refusal, is the model's
choice, log entry 17. -/
def Obligations.OverlappingRangesAreRefused : Prop :=
  (∀ (s : State) (cont : Bool) (p : Plan) (a : Nat), p.read.Has a → p.write.Has a →
    (encbPlan s.cfg s.dev.hid = .ok p → exec (.encb cont) s = .refused .aliased) ∧
    (decbPlan s.cfg s.dev.hid = .ok p → exec (.decb cont) s = .refused .aliased)) ∧
  ∀ (s : State) (w : Word) (rest : List Turn) (cont : Bool) (p : Plan) (a : Nat),
    s.agenda = .host (.regWrite s.dev.base 4 w) :: rest → s.dev.busy = false → p.read.Has a → p.write.Has a →
    (decode w = .ok (.encb cont) → encbPlan s.cfg (s.dev.latch s.cfg w) = .ok p → step s = .refused .aliased) ∧
    (decode w = .ok (.decb cont) → decbPlan s.cfg (s.dev.latch s.cfg w) = .ok p → step s = .refused .aliased)

/-- R70, R187: a device whose command has an access the platform does not admit has no step. That this is a command that
answers its state unchanged, showing none of the accesses it may have made before, is the model's reading, log entry
12. -/
def Obligations.UnadmittedAccessLeavesTheDeviceStuck : Prop :=
  ∀ (s : State) (p : Plan) (g : Region) (a : Nat) (cont : Bool),
    s.planRefusal p = none → g ∈ s.cfg.regions → g.range.Has a →
    (g.kind = .noReads ∧ p.read.Has a) ∨ (g.kind = .noWrites ∧ p.write.Has a) →
    (encbPlan s.cfg s.dev.hid = .ok p → exec (.encb cont) s = .next s) ∧
    (decbPlan s.cfg s.dev.hid = .ok p → exec (.decb cont) s = .next s)

/-- What every command leaves unchanged: the operand registers and `OVF` (R39), the other instances, the parameters and
tables (R40, R42), and every byte of memory outside the write range of a buffer command. -/
def Obligations.CommandFrame : Prop :=
  ∀ (i : Instr) (s t : State), exec i s = .next t →
    s.SameAround t ∧
    (i.mnemonic ≠ .encb → i.mnemonic ≠ .decb → s.SameMemory t) ∧
    (i.mnemonic = .encb →
      s.SameOutside t s.dev.hid.dstl.toNat ((s.dev.hid.srclenl.toNat / 2 + 1) / 2)) ∧
    (i.mnemonic = .decb → s.SameOutside t s.dev.hid.dstl.toNat (2 * s.dev.hid.nsampl.toNat))

/-! ### The arithmetic (40_codec_core.md) -/

/-- R102: the four bits of a code. -/
def Obligations.QuantizeBits : Prop :=
  ∀ (s p : Int) (step d d1 d2 : Nat),
    d = (s - p).natAbs →
    d1 = (if step ≤ d then d - step else d) →
    d2 = (if step / 2 ≤ d1 then d1 - step / 2 else d1) →
    ((quantize s p step).getLsbD 3 = true ↔ s - p < 0) ∧
    ((quantize s p step).getLsbD 2 = true ↔ step ≤ d) ∧
    ((quantize s p step).getLsbD 1 = true ↔ step / 2 ≤ d1) ∧
    ((quantize s p step).getLsbD 0 = true ↔ step / 2 / 2 ≤ d2)

/-- The magnitudes at step 7, and that magnitude 7 is where the quantizer saturates: the spec's own inference from R102,
its sentences "at `step = 7`, `d` = 0 gives `m = 0`" and on, and "In general `m = 7` exactly when". -/
def Obligations.QuantizeMagnitudes : Prop :=
  (∀ (s p : Int) (step : Nat),
    (quantize s p step).toNat % 8 = 7 ↔ step + step / 2 + step / 2 / 2 ≤ (s - p).natAbs) ∧
  ∀ (s p : Int) (d m : Nat), d = (s - p).natAbs → m = (quantize s p 7).toNat % 8 →
    (d = 0 → m = 0) ∧ (d = 1 ∨ d = 2 → m = 1) ∧ (d = 3 → m = 2) ∧ (d = 4 ∨ d = 5 ∨ d = 6 → m = 3) ∧
    (d = 7 → m = 4) ∧ (d = 8 ∨ d = 9 → m = 5) ∧ (d = 10 → m = 6) ∧ (11 ≤ d → m = 7)

/-- R104: `Reconstruct`, on the magnitude as a number. -/
def Obligations.ReconstructSum : Prop :=
  ∀ (step : Nat) (m : BitVec 3),
    reconstruct step m =
      step / 8 + m.toNat / 4 * step + m.toNat / 2 % 2 * (step / 2) + m.toNat % 2 * (step / 4)

/-- R106: `Adapt`, with the clamps on exact integers and nothing wrapping. -/
def Obligations.AdaptRule : Prop :=
  ∀ (c : Params) (a : Adaptation) (code : Code) (step : Nat) (k v p : Int),
    c.stepTable[a.index.toNat]? = some step → c.indexTable[code.toNat]? = some k →
    v = reconstruct step (code.extractLsb' 0 3) →
    p = (if code.getLsbD 3 then a.pred.toInt - v else a.pred.toInt + v) →
    (adapt c a code).pred.toInt = max (-32768) (min 32767 p) ∧
    ((adapt c a code).index.toNat : Int) = max 0 (min 88 (a.index.toNat + k))

/-- The ranges of the intermediate values with the default tables (log entry 4), from every state with `INDEX` up to 88:
the spec's own inference, "Intermediate values need these exact ranges", with "every `t` tested is at least 1" and "the
maximum is `Reconstruct(32767, 7)`". -/
def Obligations.IntermediateRanges : Prop :=
  (∀ k : StepIndex, k.toNat ≤ 88 → 1 ≤ Params.default.step k / 2 / 2) ∧
  reconstruct (Params.default.step 88) 7 = 61436 ∧
  ∀ (s p : Sample) (k : StepIndex) (code : Code) (v : Nat),
    k.toNat ≤ 88 → v = reconstruct (Params.default.step k) (code.extractLsb' 0 3) →
    -65535 ≤ s.toInt - p.toInt ∧ s.toInt - p.toInt ≤ 65535 ∧ (s.toInt - p.toInt).natAbs ≤ 65535 ∧ v ≤ 61436 ∧
    -94204 ≤ p.toInt - v ∧ p.toInt + v ≤ 94203 ∧
    -1 ≤ k.toNat + Params.default.adjust code ∧ k.toNat + Params.default.adjust code ≤ 96

/-- The tracking law, for all tables, start states and samples: the spec's own inference from R106 and R108, "after each
sample the decoder's `PRED` and `INDEX` equal the encoder's". And the spec's example that it is no identity, with the
default tables (log entry 4). -/
def Obligations.TrackingLaw : Prop :=
  (∀ (c : Params) (a : Adaptation) (xs : List Sample),
    decodeStates c a (encodeCodes c a xs) = encodeStates c a xs ∧
    decodeEnd c a (encodeCodes c a xs) = encodeEnd c a xs) ∧
  encodeCodes Params.default ⟨0, 0⟩ [32767] = [7] ∧ decodeSamples Params.default ⟨0, 0⟩ [7] = [11]

/-- R140: packing, byte by byte, with the zero low nibble after an odd last code; and that unpacking (R142) gives the
codes back. -/
def Obligations.PackThenUnpack : Prop :=
  ∀ codes : List Code,
    (pack codes).length = (codes.length + 1) / 2 ∧
    (∀ (j : Nat) (x y : Code), codes[2 * j]? = some x → codes[2 * j + 1]? = some y →
      (pack codes)[j]? = some (x ++ y)) ∧
    (∀ x : Code, codes.length % 2 = 1 → codes[codes.length - 1]? = some x →
      (pack codes)[(codes.length - 1) / 2]? = some (x ++ 0#4)) ∧
    unpack codes.length (pack codes) = codes

/-- Chunking as a law of streams, the spec's own inference from R140, R150, R160 and R165 ("Chunking law"): after an even number of samples the packed bytes of the two chunks are those of
the whole, and the state carries over. -/
def Obligations.StreamChunkingLaw : Prop :=
  ∀ (c : Params) (a : Adaptation) (xs ys : List Sample) (cs ds : List Code),
    (xs.length % 2 = 0 →
      pack (encodeCodes c a (xs ++ ys)) =
        pack (encodeCodes c a xs) ++ pack (encodeCodes c (encodeEnd c a xs) ys)) ∧
    encodeEnd c a (xs ++ ys) = encodeEnd c (encodeEnd c a xs) ys ∧
    decodeSamples c a (cs ++ ds) = decodeSamples c a cs ++ decodeSamples c (decodeEnd c a cs) ds ∧
    decodeEnd c a (cs ++ ds) = decodeEnd c (decodeEnd c a cs) ds

/-- The chunking law of the commands, the spec's own inference from R140, R150, R160 and R165 ("Chunking law"). After an
even number of samples, ENCB of the first chunk and then ENCB.C of the second into the next destination byte write the
bytes, and leave the Adaptation State, of one ENCB (or ENCB.C) of both chunks; the same for DECB and DECB.C, the second
reading on at the next source byte. The premises are those of the one run, and that each chunk's operands describe it. -/
def Obligations.ChunkingLaw : Prop :=
  (∀ (s s₁ : State) (cont : Bool) (src dst n₁ n₂ : Nat),
    n₁ % 2 = 0 → s.mem.wf → s.EncbOperands src (n₁ + n₂) dst →
    Range.Below ⟨src, 2 * (n₁ + n₂)⟩ s.cfg.addrW → Range.Below ⟨dst, (n₁ + n₂ + 1) / 2⟩ s.cfg.addrW →
    s.Clear ⟨src, 2 * (n₁ + n₂)⟩ ⟨dst, (n₁ + n₂ + 1) / 2⟩ →
    s.SamePlatform s₁ → (cont = true → s₁.dev.adp = s.dev.adp) → s₁.EncbOperands src n₁ dst →
    ∃ t t₁, exec (.encb cont) s = .next t ∧ exec (.encb cont) s₁ = .next t₁ ∧
      ∀ s₂ : State, t₁.SamePlatform s₂ → s₂.dev.adp = t₁.dev.adp →
        s₂.EncbOperands (src + 2 * n₁) n₂ (dst + n₁ / 2) →
        ∃ t₂, exec (.encb true) s₂ = .next t₂ ∧ t₂.dev.adp = t.dev.adp ∧ t.SameMemory t₂) ∧
  ∀ (s s₁ : State) (cont : Bool) (src dst n₁ n₂ : Nat),
    n₁ % 2 = 0 → s.mem.wf → s.DecbOperands src (n₁ + n₂) dst →
    Range.Below ⟨src, (n₁ + n₂ + 1) / 2⟩ s.cfg.addrW → Range.Below ⟨dst, 2 * (n₁ + n₂)⟩ s.cfg.addrW →
    s.Clear ⟨src, (n₁ + n₂ + 1) / 2⟩ ⟨dst, 2 * (n₁ + n₂)⟩ →
    s.SamePlatform s₁ → (cont = true → s₁.dev.adp = s.dev.adp) → s₁.DecbOperands src n₁ dst →
    ∃ t t₁, exec (.decb cont) s = .next t ∧ exec (.decb cont) s₁ = .next t₁ ∧
      ∀ s₂ : State, t₁.SamePlatform s₂ → s₂.dev.adp = t₁.dev.adp →
        s₂.DecbOperands (src + n₁ / 2) n₂ (dst + 2 * n₁) →
        ∃ t₂, exec (.decb true) s₂ = .next t₂ ∧ t₂.dev.adp = t.dev.adp ∧ t.SameMemory t₂

/-- DECB of ENCB's output, run from a state with the same memory, tables and start state, leaves the Adaptation State ENCB
left and writes the predictions the encoder held: the spec's own inference, "DECB of ENCB's output, with the same start
state and `n = N`, writes the little-endian `predicted_value` sequence". -/
def Obligations.DecbOfEncbTracks : Prop :=
  ∀ (s t u : State) (cont : Bool) (src dst dst2 n : Nat),
    s.mem.wf →
    src = s.dev.hid.srcl.toNat → 2 * n = s.dev.hid.srclenl.toNat → dst = s.dev.hid.dstl.toNat →
    (n + 1) / 2 ≤ s.dev.hid.dstlenl.toNat →
    Range.Below ⟨src, 2 * n⟩ s.cfg.addrW → Range.Below ⟨dst, (n + 1) / 2⟩ s.cfg.addrW →
    s.Clear ⟨src, 2 * n⟩ ⟨dst, (n + 1) / 2⟩ →
    exec (.encb cont) s = .next t →
    u.mem = t.mem → u.cfg = t.cfg → (cont = true → u.dev.adp = s.dev.adp) →
    dst = u.dev.hid.srcl.toNat → n = u.dev.hid.nsampl.toNat → dst2 = u.dev.hid.dstl.toNat →
    (n + 1) / 2 ≤ u.dev.hid.srclenl.toNat → 2 * n ≤ u.dev.hid.dstlenl.toNat →
    Range.Below ⟨dst2, 2 * n⟩ u.cfg.addrW → u.Clear ⟨dst, (n + 1) / 2⟩ ⟨dst2, 2 * n⟩ →
    ∃ v, exec (.decb cont) u = .next v ∧ v.dev.adp = t.dev.adp ∧
      v.mem.samplesAt dst2 n =
        (encodeStates s.cfg (if cont then s.dev.adp else ⟨0, 0⟩) (s.mem.samplesAt src n)).map Adaptation.pred

/-! ### Registers and the host (10_state.md, 20_memory.md, 70_reset_and_hazards.md) -/

/-- R49: the registers the spec gives a reset value, at `State.reset`. -/
def Obligations.ResetStateValues : Prop :=
  State.reset.dev.adp = ⟨0, 0⟩ ∧ State.reset.dev.statusWord = 0 ∧ State.reset.dev.result = 0 ∧
  State.reset.dev.src = 0 ∧ State.reset.dev.srclen = 0 ∧ State.reset.dev.dst = 0 ∧ State.reset.dev.dstlen = 0 ∧
  State.reset.dev.nsamp = 0

/-- R210, R211: the reset input, from every state: the registers at their reset values, the tables and the other
instances unchanged, and memory unchanged outside the write range of a command that was running. That a command that will
fail, or is no buffer command, has no write range is the model's reading, log entries 10 and 22. -/
def Obligations.ResetInput : Prop :=
  ∀ (s : State) (rest : List Turn), s.agenda = .host (.reset 0) :: rest →
    ∃ t, step s = .next t ∧ t.dev.adp = ⟨0, 0⟩ ∧ t.dev.statusWord = 0 ∧ t.dev.result = 0 ∧ t.dev.src = 0 ∧
      t.dev.srclen = 0 ∧ t.dev.dst = 0 ∧ t.dev.dstlen = 0 ∧ t.dev.nsamp = 0 ∧
      t.dev.base = s.dev.base ∧ t.cfg = s.cfg ∧ t.others = s.others ∧ t.agenda = rest ∧ t.rdata = s.rdata ∧
      (s.dev.busy = false → t.mem = s.mem) ∧
      ∀ a, (∀ p, s.dev.running s.cfg = some p → ¬p.write.Has a) → t.mem.read a = s.mem.read a

/-- R216: an issue that is not refused latches the word and the operand registers, sets `BUSY` and clears `OVF` and
`ERR`; nothing else changes. -/
def Obligations.IssueLatchesTheCommand : Prop :=
  ∀ (s : State) (w : Word) (rest : List Turn), s.agenda = .host (.regWrite s.dev.base 4 w) :: rest →
    s.dev.busy = false →
    (∀ p, commandPlan s.cfg (s.dev.latch s.cfg w) = some p → s.planRefusal p = none) →
    ∃ t, step s = .next t ∧ t.dev.hid.cmdl = w ∧
      t.dev.hid.srcl.toNat = s.dev.src.toNat % 2 ^ s.cfg.addrW ∧ t.dev.hid.srclenl = s.dev.srclen ∧
      t.dev.hid.dstl.toNat = s.dev.dst.toNat % 2 ^ s.cfg.addrW ∧ t.dev.hid.dstlenl = s.dev.dstlen ∧
      t.dev.hid.nsampl = s.dev.nsamp ∧ t.dev.busy = true ∧ t.dev.ovf = false ∧ t.dev.err = .ok ∧
      t.dev.adp = s.dev.adp ∧ t.dev.result = s.dev.result ∧ t.dev.src = s.dev.src ∧ t.dev.srclen = s.dev.srclen ∧
      t.dev.dst = s.dev.dst ∧ t.dev.dstlen = s.dev.dstlen ∧ t.dev.nsamp = s.dev.nsamp ∧
      t.mem = s.mem ∧ t.others = s.others ∧ t.cfg = s.cfg ∧ t.agenda = rest ∧ t.rdata = s.rdata

/-- R218: a write to `CMD` or an operand register while `BUSY` is 1 is ignored and sets `OVF`; a write to any other
aligned offset changes nothing. -/
def Obligations.WritesWhileBusyAreIgnored : Prop :=
  ∀ (s : State) (offset : BitVec 8) (v : Word) (rest : List Turn),
    s.agenda = .host (.regWrite (s.dev.base + offset.toNat) 4 v) :: rest → s.dev.busy = true → offset.toNat % 4 = 0 →
    (offset ∈ [0x00#8, 0x14#8, 0x18#8, 0x1C#8, 0x20#8, 0x24#8] →
      step s = .next { s with agenda := rest, dev := { s.dev with ovf := true } }) ∧
    (offset ∉ [0x00#8, 0x14#8, 0x18#8, 0x1C#8, 0x20#8, 0x24#8] → step s = .next { s with agenda := rest })

/-- R47, R35: a host write to a read-only register or a reserved offset changes nothing, and a read of `CMD` or a
reserved offset returns 0 and changes nothing else, whether `BUSY` is 0 or 1. -/
def Obligations.ReadOnlyAndReservedOffsets : Prop :=
  ∀ (s : State) (offset : BitVec 8) (v : Word) (rest : List Turn), offset.toNat % 4 = 0 →
    (offset ∈ [0x04#8, 0x08#8, 0x0C#8, 0x10#8] ∨ 0x28 ≤ offset.toNat →
      s.agenda = .host (.regWrite (s.dev.base + offset.toNat) 4 v) :: rest → step s = .next { s with agenda := rest }) ∧
    (offset = 0x00#8 ∨ 0x28 ≤ offset.toNat →
      s.agenda = .host (.regRead (s.dev.base + offset.toNat) 4) :: rest →
      step s = .next { s with agenda := rest, rdata := 0 })

/-- R39: an operand register written while idle reads back as written, but for the bits of `SRC` and `DST` at and above
`ADDR_W`, which read 0. -/
def Obligations.OperandsReadBack : Prop :=
  ∀ (s : State) (offset : BitVec 8) (v : Word) (rest : List Turn),
    s.agenda =
      .host (.regWrite (s.dev.base + offset.toNat) 4 v) :: .host (.regRead (s.dev.base + offset.toNat) 4) :: rest →
    s.dev.busy = false →
    offset ∈ [0x14#8, 0x18#8, 0x1C#8, 0x20#8, 0x24#8] →
    ∃ t, Sys2Proof.core.run 2 s = .next t ∧
      (offset ∈ [0x18#8, 0x20#8, 0x24#8] → t.rdata = v) ∧
      (offset ∈ [0x14#8, 0x1C#8] → t.rdata.toNat = v.toNat % 2 ^ s.cfg.addrW) ∧
      t.mem = s.mem ∧ t.others = s.others ∧ t.cfg = s.cfg ∧ t.dev.adp = s.dev.adp ∧
      t.dev.statusWord = s.dev.statusWord ∧ t.dev.result = s.dev.result ∧ t.dev.hid = s.dev.hid ∧
      (offset ≠ 0x14#8 → t.dev.src = s.dev.src) ∧ (offset ≠ 0x18#8 → t.dev.srclen = s.dev.srclen) ∧
      (offset ≠ 0x1C#8 → t.dev.dst = s.dev.dst) ∧ (offset ≠ 0x20#8 → t.dev.dstlen = s.dev.dstlen) ∧
      (offset ≠ 0x24#8 → t.dev.nsamp = s.dev.nsamp)

/-- R37, R181: what a read of `STATUS` returns, at all times: `BUSY` in bit 0, `OVF` in bit 1, the number of the error in
bits 7 to 4, and 0 in every reserved bit. -/
def Obligations.StatusReads : Prop :=
  ∀ (s : State) (rest : List Turn), s.agenda = .host (.regRead (s.dev.base + 0x04) 4) :: rest →
    ∃ w : Word, step s = .next { s with agenda := rest, rdata := w } ∧
      w.getLsbD 0 = s.dev.busy ∧ w.getLsbD 1 = s.dev.ovf ∧ w.extractLsb' 4 4 = s.dev.err.code ∧
      (s.dev.err = .ok → w.extractLsb' 4 4 = 0#4) ∧ (s.dev.err = .illegal → w.extractLsb' 4 4 = 1#4) ∧
      (s.dev.err = .framing → w.extractLsb' 4 4 = 2#4) ∧ (s.dev.err = .dstShort → w.extractLsb' 4 4 = 3#4) ∧
      (s.dev.err = .srcShort → w.extractLsb' 4 4 = 4#4) ∧ (s.dev.err = .range → w.extractLsb' 4 4 = 5#4) ∧
      (s.dev.err = .badState → w.extractLsb' 4 4 = 6#4) ∧
      (w.extractLsb' 4 4).toNat ≤ 6 ∧ w.extractLsb' 2 2 = 0#2 ∧ w.extractLsb' 8 24 = 0#24

/-- R30, R31, R38, R48: while `BUSY` is 0 the host reads `PRED` sign-extended, `INDEX` zero-extended and `RESULT`; while
it is 1 the three reads change nothing but the value read, which is free; the operand registers read as they are at all
times (`SRC` and `DST` without their bits at and above `ADDR_W`, R39). -/
def Obligations.RegisterReads : Prop :=
  ∀ (s : State) (offset : BitVec 8) (rest : List Turn),
    s.agenda = .host (.regRead (s.dev.base + offset.toNat) 4) :: rest →
    offset ∈ [0x08#8, 0x0C#8, 0x10#8, 0x14#8, 0x18#8, 0x1C#8, 0x20#8, 0x24#8] →
    ∃ t, step s = .next t ∧ t.dev = s.dev ∧ t.mem = s.mem ∧ t.others = s.others ∧ t.cfg = s.cfg ∧ t.agenda = rest ∧
      (offset = 0x08#8 → s.dev.busy = false → t.rdata = s.dev.result) ∧
      (offset = 0x0C#8 → s.dev.busy = false → t.rdata.toInt = s.dev.adp.pred.toInt) ∧
      (offset = 0x10#8 → s.dev.busy = false → t.rdata.toNat = s.dev.adp.index.toNat) ∧
      (offset = 0x14#8 → t.rdata.toNat = s.dev.src.toNat % 2 ^ s.cfg.addrW) ∧
      (offset = 0x1C#8 → t.rdata.toNat = s.dev.dst.toNat % 2 ^ s.cfg.addrW) ∧
      (offset = 0x18#8 → t.rdata = s.dev.srclen) ∧ (offset = 0x20#8 → t.rdata = s.dev.dstlen) ∧
      (offset = 0x24#8 → t.rdata = s.dev.nsamp)

/-- R60: a register access that is not 32 bits wide or not 4-byte aligned is refused. -/
def Obligations.RegisterAccessRefused : Prop :=
  ∀ (s : State) (offset : BitVec 8) (width : Nat) (v : Word) (rest : List Turn),
    width ≠ 4 ∨ offset.toNat % 4 ≠ 0 →
    (s.agenda = .host (.regRead (s.dev.base + offset.toNat) width) :: rest → step s = .refused .regAccess) ∧
    (s.agenda = .host (.regWrite (s.dev.base + offset.toNat) width v) :: rest → step s = .refused .regAccess)

/-- R30, R31: only the commands and reset write `PRED` and `INDEX`: no other host step changes them, in any instance. -/
def Obligations.HostNeverWritesTheAdaptationState : Prop :=
  ∀ (s t : State) (h : HostAction) (rest : List Turn), s.agenda = .host h :: rest → (∀ k, h ≠ .reset k) →
    step s = .next t →
    t.dev.adp = s.dev.adp ∧ t.others.map Instance.adp = s.others.map Instance.adp

/-- R72 point 3, R186: a host write to a byte of a running command's read or write range is refused, whatever the platform
admits there. -/
def Obligations.HostWriteIntoRunningBufferRefused : Prop :=
  ∀ (s : State) (a : Nat) (v : Byte) (rest : List Turn) (d : Instance) (p : Plan),
    s.agenda = .host (.memWrite a v) :: rest → d ∈ s.instances → d.running s.cfg = some p →
    p.read.Has a ∨ p.write.Has a → step s = .refused .bufferRace

/-- R72 point 3: a host read of a byte that admits it, outside every running command's write range (in a read range too),
returns the byte memory holds and changes nothing else; inside one it changes no register and no byte of memory, and the
value is free. That a command that will fail has no range is the model's reading, log entry 22. -/
def Obligations.HostMemoryReads : Prop :=
  ∀ (s : State) (a : Nat) (rest : List Turn), s.agenda = .host (.memRead a) :: rest →
    (a < 2 ^ s.cfg.addrW → (∀ g ∈ s.cfg.regions, g.range.Has a → g.kind = .noWrites) →
      (∀ d ∈ s.instances, ∀ p, d.running s.cfg = some p → ¬p.write.Has a) →
      step s = .next { s with agenda := rest, rdata := (s.mem.read a).setWidth 32 }) ∧
    (∀ d ∈ s.instances, ∀ p, d.running s.cfg = some p → p.write.Has a →
      ∃ t, step s = .next t ∧ t.dev = s.dev ∧ t.others = s.others ∧ t.mem = s.mem ∧ t.cfg = s.cfg ∧ t.agenda = rest)

/-- R72: away from the running commands' ranges a byte the host writes is the byte it reads next, and every other byte
reads as before. That a command that will fail has no range, so that the host may write anywhere while it is in progress, is
the model's reading, log entry 22. -/
def Obligations.HostMemoryReadsBack : Prop :=
  ∀ (s : State) (a : Nat) (v : Byte) (rest : List Turn),
    s.mem.wf → s.agenda = .host (.memWrite a v) :: .host (.memRead a) :: rest →
    a < 2 ^ s.cfg.addrW → (∀ g ∈ s.cfg.regions, ¬g.range.Has a) →
    (∀ d ∈ s.instances, ∀ p, d.running s.cfg = some p → ¬p.read.Has a ∧ ¬p.write.Has a) →
    ∃ t, Sys2Proof.core.run 2 s = .next t ∧ t.rdata.toNat = v.toNat ∧ t.dev = s.dev ∧ t.others = s.others ∧
      ∀ b, b ≠ a → t.mem.read b = s.mem.read b

/-- R62: PCM samples are little-endian, the byte at the sample's address being bits [7:0]. -/
def Obligations.SamplesAreLittleEndian : Prop :=
  (∀ (m : Memory) (b n k : Nat), k < n →
    (m.samplesAt b n)[k]? = some (m.read (b + 2 * k + 1) ++ m.read (b + 2 * k))) ∧
  ∀ (m : Memory) (a : Nat) (v : Sample),
    m.readSample a = m.read (a + 1) ++ m.read a ∧
    (m.wf → (m.writeSample a v).read a = v.extractLsb' 0 8 ∧ (m.writeSample a v).read (a + 1) = v.extractLsb' 8 8 ∧
      (m.writeSample a v).readSample a = v ∧
      ∀ b, b ≠ a → b ≠ a + 1 → (m.writeSample a v).read b = m.read b)

/-- R61: the buffer memory has `2^ADDR_W` bytes; a host access above them is the model's fault (log entry 20). -/
def Obligations.AccessAboveMemoryFaults : Prop :=
  ∀ (s : State) (a : Nat) (v : Byte) (rest : List Turn), 2 ^ s.cfg.addrW ≤ a →
    (s.agenda = .host (.memRead a) :: rest → step s = .fault .noSuchAddress) ∧
    (s.agenda = .host (.memWrite a v) :: rest → step s = .fault .noSuchAddress)

/-- R60, R68: a register access at an address in no instance's window reaches no block; the model's fault (log entry 20),
also for a wide access that reaches into a window from below (log entry 27). -/
def Obligations.AccessOutsideTheWindowsFaults : Prop :=
  ∀ (s : State) (addr width : Nat) (v : Word) (rest : List Turn),
    (∀ d ∈ s.instances, addr < d.base ∨ d.base + 256 ≤ addr) →
    (s.agenda = .host (.regRead addr width) :: rest → step s = .fault .noSuchAddress) ∧
    (s.agenda = .host (.regWrite addr width v) :: rest → step s = .fault .noSuchAddress)

/-! ### Several instances (60_exceptions.md R196) -/

/-- R196: the instances "share nothing but the buffer memory": a turn of one instance (its device's, a host access to its
register window, its reset) leaves every other instance as it was. -/
def Obligations.InstancesShareOnlyMemory : Prop :=
  (∀ (s t : State) (x : Turn) (rest : List Turn), s.agenda = x :: rest → s.TurnOfSelected x → step s = .next t →
    t.others = s.others) ∧
  ∀ (s t : State) (j : Nat) (x : Turn) (rest : List Turn), s.agenda = x :: rest → s.TurnOfOther j x →
    step s = .next t →
    t.dev = s.dev ∧ t.others.length = s.others.length ∧ ∀ m, m ≠ j → t.others[m]? = s.others[m]?

/-- R196: each instance has "its own register window, Adaptation State and busy state": a turn of entry `j` of the others is
that turn of the selected instance, taken on the state with the two exchanged, and exchanged back. The exchange is the
model's form of R196, log entry 18, and the order in which windows are looked at is log entry 5. -/
def Obligations.EveryInstanceTakesTheSameTurns : Prop :=
  ∀ (s u : State) (j : Nat) (d : Instance) (x : Turn) (rest : List Turn),
    s.agenda = x :: rest → s.others[j]? = some d → s.TurnOfOther j x →
    u = { s with dev := d, others := s.others.set j s.dev, agenda := x.ofSelected :: rest } →
    (∀ t, step u = .next t → step s = .next { t with dev := s.dev, others := s.others.set j t.dev }) ∧
    (∀ r, step u = .fault r → step s = .fault r) ∧ ∀ r, step u = .refused r → step s = .refused r

/-- R196: a buffer command is refused when it would write a byte that a command another instance is running reads or
writes, or read a byte that one writes. That it is refused at its issue, and as BUFFER_RACE before side effects, is the
model's choice, log entry 17. -/
def Obligations.ConflictingInstancesRefused : Prop :=
  ∀ (s : State) (w : Word) (rest : List Turn) (p q : Plan) (d : Instance) (a : Nat),
    s.agenda = .host (.regWrite s.dev.base 4 w) :: rest → s.dev.busy = false →
    commandPlan s.cfg (s.dev.latch s.cfg w) = some p → d ∈ s.others → d.running s.cfg = some q →
    (p.write.Has a ∧ q.write.Has a) ∨ (p.write.Has a ∧ q.read.Has a) ∨ (p.read.Has a ∧ q.write.Has a) →
    (∀ b, ¬(p.read.Has b ∧ p.write.Has b)) → step s = .refused .bufferRace

/-! ### The whole machine -/

/-- R8, R9: the default tables satisfy what the source says of any tables; the step table is strictly increasing,
so the claim holds in either reading of R8's order (log entry 28). The values are general knowledge, log entry 4. -/
def Obligations.DefaultTablesAreLegal : Prop :=
  Params.default.StepTableLegal ∧ Params.default.IndexTableLegal ∧ Params.default.stepTable.Pairwise (· < ·)

/-- R40, R42: no step changes the tables; nor the parameters (R7, R60, R68, R70), which are what the platform fixes: `ADDR_W`,
which accesses it admits, the number of instances and their windows. That what the platform admits does not change as the
machine runs is the model's choice, log entry 13; that `ADDR_W`, the instances and the windows do not is log entry 5. -/
def Obligations.TablesNeverChange : Prop :=
  ∀ s t : State, step s = .next t →
    t.cfg = s.cfg ∧ t.dev.base = s.dev.base ∧ t.others.map Instance.base = s.others.map Instance.base

/-- Two memories in canonical form that read the same everywhere are equal (the model's convention, log entry 6). -/
def Obligations.CanonicalMemoriesAreEqual : Prop :=
  ∀ m n : Memory, m.wf → n.wf → (∀ a, m.read a = n.read a) → m = n

/-- The invariant holds at reset. That memory is then in canonical form is the model's convention, log entry 6 (R49: the
memory is not part of the block). -/
def Obligations.ResetSatisfiesTheInvariant : Prop := State.reset.Inv

/-- R32 ("`step_index` never leaves [0,88]") and the rest of the invariant: every step keeps it, from every state that has
it. The canonical form of memory is the model's convention, log entry 6. -/
def Obligations.StepKeepsTheInvariant : Prop := ∀ s t : State, s.Inv → step s = .next t → t.Inv
end

