-- ==== Sys2Proof/Laws/Arith.lean ====
section
/-! SUPPORT. The clamps of the per-sample arithmetic (40_codec_core.md R106, R107). -/
namespace Sys2Proof.Machine

theorem clamp_le {v lo hi : Int} (h : lo ≤ hi) : clamp v lo hi ≤ hi := by
  unfold clamp
  split
  · exact h
  · split <;> omega

theorem le_clamp {v lo hi : Int} (h : lo ≤ hi) : lo ≤ clamp v lo hi := by
  unfold clamp
  split
  · exact Int.le_refl _
  · split <;> omega

/-- The clamp of R13 as a maximum and a minimum. -/
theorem clamp_eq_max_min {v lo hi : Int} (h : lo ≤ hi) : clamp v lo hi = max lo (min hi v) := by
  unfold clamp
  split
  · omega
  · split <;> omega

/-- A value in [0, 88] fits the 7 bits of `INDEX`. -/
theorem toNat_ofInt_index {v : Int} (h0 : 0 ≤ v) (h1 : v ≤ 88) : ((BitVec.ofInt 7 v).toNat : Int) = v := by
  rw [BitVec.toNat_ofInt]
  omega

/-- A value in [-32768, 32767] fits the 16 bits of `PRED`. -/
theorem toInt_ofInt_pred {v : Int} (h0 : -32768 ≤ v) (h1 : v ≤ 32767) : (BitVec.ofInt 16 v).toInt = v := by
  rw [BitVec.toInt_ofInt, Int.bmod_def]
  omega

/-- `Adapt` leaves `INDEX` in [0, 88], whatever the tables hold (10_state.md R32). -/
theorem adapt_index_le (c : Params) (a : Adaptation) (code : Code) : (adapt c a code).index.toNat ≤ 88 := by
  have h := toNat_ofInt_index (le_clamp (v := a.index.toNat + c.adjust code) (by decide : (0 : Int) ≤ 88))
    (clamp_le (by decide : (0 : Int) ≤ 88))
  have h' := clamp_le (v := a.index.toNat + c.adjust code) (by decide : (0 : Int) ≤ 88)
  unfold adapt
  dsimp only
  omega

/-- The encoder step is `Adapt` on the code it chose (R108). -/
theorem encodeStep_snd (c : Params) (a : Adaptation) (x : Sample) :
    (encodeStep c a x).2 = adapt c a (encodeStep c a x).1 := rfl

@[simp] theorem encodeCodes_length (c : Params) (a : Adaptation) (xs : List Sample) :
    (encodeCodes c a xs).length = xs.length := by
  induction xs generalizing a with
  | nil => rfl
  | cons x xs ih => simp [encodeCodes, ih]

@[simp] theorem decodeStates_length (c : Params) (a : Adaptation) (codes : List Code) :
    (decodeStates c a codes).length = codes.length := by
  induction codes generalizing a with
  | nil => rfl
  | cons x xs ih => simp [decodeStates, ih]

@[simp] theorem samplesAt_length (m : Memory) (base n : Nat) : (m.samplesAt base n).length = n := by
  simp [Memory.samplesAt]

@[simp] theorem codesAt_length (m : Memory) (base n : Nat) : (m.codesAt base n).length = n := by
  simp [Memory.codesAt]

end Sys2Proof.Machine
end

