-- ==== Sys2Proof/Laws/Memory.lean ====
section
/-! SUPPORT. The laws of the buffer memory: read after write, and that every operation keeps the canonical form. -/
namespace Sys2Proof.Machine

theorem Memory.read_of_absent {m : Memory} {a : Nat} (h : ∀ c ∈ m, c.1 ≠ a) : m.read a = Config.unlistedByte := by
  induction m with
  | nil => rfl
  | cons c m ih =>
    obtain ⟨k, w⟩ := c
    have hk : k ≠ a := h (k, w) (by simp)
    simp only [Memory.read, if_neg hk]
    exact ih fun c hc => h c (by simp [hc])

theorem Memory.read_entry_append_ne (m : Memory) {a b : Nat} (v : Byte) (h : b ≠ a) :
    Memory.read (Memory.entry a v ++ m) b = m.read b := by
  unfold Memory.entry
  split
  · rfl
  · simp [Memory.read, Ne.symm h]

theorem Memory.read_entry_append_self {m : Memory} {a : Nat} (v : Byte) (h : ∀ c ∈ m, c.1 ≠ a) :
    Memory.read (Memory.entry a v ++ m) a = v := by
  unfold Memory.entry
  split
  · rename_i hv
    simpa [hv] using Memory.read_of_absent h
  · simp [Memory.read]

/-- A write leaves every other address as it was. -/
theorem Memory.read_write_ne (m : Memory) {a b : Nat} (v : Byte) (h : b ≠ a) : (m.write a v).read b = m.read b := by
  induction m with
  | nil => simpa [Memory.write] using Memory.read_entry_append_ne [] v h
  | cons c m ih =>
    obtain ⟨k, w⟩ := c
    simp only [Memory.write]
    split
    · exact Memory.read_entry_append_ne _ v h
    · split
      · rename_i hk
        rw [Memory.read_entry_append_ne _ v h, Memory.read, if_neg (by omega)]
      · simp only [Memory.read, ih]

/-- A write is read back, in a memory in canonical form. -/
theorem Memory.read_write_self {m : Memory} (hm : m.wf) (a : Nat) (v : Byte) : (m.write a v).read a = v := by
  induction m with
  | nil => simpa [Memory.write] using Memory.read_entry_append_self (m := []) v (by simp)
  | cons c m ih =>
    obtain ⟨k, w⟩ := c
    obtain ⟨hp, hn⟩ := hm
    have hlt : ∀ c ∈ m, k < c.1 := (List.pairwise_cons.1 hp).1
    simp only [Memory.write]
    split
    · rename_i hak
      refine Memory.read_entry_append_self v fun c hc => ?_
      rcases List.mem_cons.1 hc with rfl | hc
      · exact (Nat.ne_of_lt hak).symm
      · have := hlt c hc
        omega
    · split
      · rename_i hk
        exact Memory.read_entry_append_self v fun c hc => by have := hlt c hc; omega
      · rename_i hk
        simp only [Memory.read, if_neg hk]
        exact ih ⟨(List.pairwise_cons.1 hp).2, fun c hc => hn c (by simp [hc])⟩

theorem Memory.mem_entry {x : Host.Cell} {a : Nat} {v : Byte} (h : x ∈ Memory.entry a v) :
    x = (a, v) ∧ v ≠ Config.unlistedByte := by
  unfold Memory.entry at h
  split at h
  · simp at h
  · exact ⟨by simpa using h, ‹_›⟩

/-- What a write can list: what was listed, and the written byte. -/
theorem Memory.mem_write {x : Host.Cell} {m : Memory} {a : Nat} {v : Byte} (h : x ∈ m.write a v) :
    x ∈ m ∨ (x = (a, v) ∧ v ≠ Config.unlistedByte) := by
  induction m with
  | nil => exact .inr (Memory.mem_entry h)
  | cons c m ih =>
    obtain ⟨k, w⟩ := c
    simp only [Memory.write] at h
    split at h
    · rcases List.mem_append.1 h with h | h
      · exact .inr (Memory.mem_entry h)
      · exact .inl h
    · split at h
      · rcases List.mem_append.1 h with h | h
        · exact .inr (Memory.mem_entry h)
        · exact .inl (by simp [h])
      · rcases List.mem_cons.1 h with h | h
        · exact .inl (by simp [h])
        · exact (ih h).imp (fun h => by simp [h]) id

theorem Memory.pairwise_entry_append {m : Memory} {a : Nat} {v : Byte}
    (hm : List.Pairwise (fun x y : Host.Cell => x.1 < y.1) m) (h : ∀ c ∈ m, a < c.1) :
    List.Pairwise (fun x y : Host.Cell => x.1 < y.1) (Memory.entry a v ++ m) := by
  unfold Memory.entry
  split
  · exact hm
  · exact List.pairwise_cons.2 ⟨h, hm⟩

/-- A write keeps the canonical form. -/
theorem Memory.write_wf {m : Memory} (hm : m.wf) (a : Nat) (v : Byte) : (m.write a v).wf := by
  refine ⟨?_, fun c hc => ?_⟩
  · obtain ⟨hp, -⟩ := hm
    induction m with
    | nil => simpa [Memory.write] using Memory.pairwise_entry_append (m := []) (a := a) (v := v) (by simp) (by simp)
    | cons c m ih =>
      obtain ⟨k, w⟩ := c
      obtain ⟨hlt, hp'⟩ := List.pairwise_cons.1 hp
      simp only [Memory.write]
      split
      · rename_i hak
        refine Memory.pairwise_entry_append hp fun c hc => ?_
        rcases List.mem_cons.1 hc with rfl | hc
        · exact hak
        · exact Nat.lt_trans hak (hlt c hc)
      · split
        · rename_i hk
          exact Memory.pairwise_entry_append hp' fun c hc => hk ▸ hlt c hc
        · refine List.pairwise_cons.2 ⟨fun x hx => ?_, ih hp'⟩
          rcases Memory.mem_write hx with hx | ⟨rfl, -⟩
          · exact hlt x hx
          · show k < a
            omega
  · rcases Memory.mem_write hc with hc | ⟨rfl, hv⟩
    · exact hm.2 c hc
    · exact hv

/-- The memory at reset is in canonical form. -/
theorem Memory.reset_wf : State.reset.mem.wf := by decide

theorem Memory.writeSample_wf {m : Memory} (hm : m.wf) (a : Nat) (v : Sample) : (m.writeSample a v).wf :=
  Memory.write_wf (Memory.write_wf hm _ _) _ _

theorem Memory.scramble_wf {m : Memory} (hm : m.wf) (base d n : Nat) : (m.scramble base d n).wf := by
  induction n with
  | zero => exact hm
  | succ n ih => exact Memory.write_wf ih _ _

/-- A write of a sample leaves every byte but its two as it was. -/
theorem Memory.read_writeSample_ne (m : Memory) {a b : Nat} (v : Sample) (h : b ≠ a) (h' : b ≠ a + 1) :
    (m.writeSample a v).read b = m.read b := by
  unfold Memory.writeSample
  rw [Memory.read_write_ne _ _ h', Memory.read_write_ne _ _ h]

/-- Free bytes change nothing outside their range. -/
theorem Memory.read_scramble_ne (m : Memory) {base b : Nat} (d n : Nat) (h : b < base ∨ base + n ≤ b) :
    (m.scramble base d n).read b = m.read b := by
  induction n with
  | zero => rfl
  | succ n ih =>
    simp only [Memory.scramble]
    rw [Memory.read_write_ne _ _ (by omega), ih (by omega)]

theorem Memory.mem_writeSample {x : Host.Cell} {m : Memory} {a : Nat} {v : Sample} (h : x ∈ m.writeSample a v) :
    x ∈ m ∨ x.1 = a ∨ x.1 = a + 1 := by
  rcases Memory.mem_write h with h | ⟨rfl, -⟩
  · rcases Memory.mem_write h with h | ⟨rfl, -⟩
    · exact .inl h
    · exact .inr (.inl rfl)
  · exact .inr (.inr rfl)

theorem Memory.mem_scramble {x : Host.Cell} {m : Memory} {base d n : Nat} (h : x ∈ m.scramble base d n) :
    x ∈ m ∨ (base ≤ x.1 ∧ x.1 < base + n) := by
  induction n with
  | zero => exact .inl h
  | succ n ih =>
    rcases Memory.mem_write h with h | ⟨rfl, -⟩
    · exact (ih h).imp_right fun h => ⟨h.1, by omega⟩
    · exact .inr ⟨by simp, by simp⟩

end Sys2Proof.Machine
end

