-- ==== Sys2Proof/Laws/State.lean ====
section
/-! SUPPORT. One lemma per field per update of the state, each true by unfolding the update. -/
namespace Sys2Proof.Machine

/-! ### `setAdp` -/

@[simp] theorem State.setAdp_mem (s : State) (a : Adaptation) : (s.setAdp a).mem = s.mem := rfl
@[simp] theorem State.setAdp_cfg (s : State) (a : Adaptation) : (s.setAdp a).cfg = s.cfg := rfl
@[simp] theorem State.setAdp_others (s : State) (a : Adaptation) : (s.setAdp a).others = s.others := rfl
@[simp] theorem State.setAdp_agenda (s : State) (a : Adaptation) : (s.setAdp a).agenda = s.agenda := rfl
@[simp] theorem State.setAdp_rdata (s : State) (a : Adaptation) : (s.setAdp a).rdata = s.rdata := rfl
@[simp] theorem State.setAdp_draws (s : State) (a : Adaptation) : (s.setAdp a).draws = s.draws := rfl
@[simp] theorem State.setAdp_dev_base (s : State) (a : Adaptation) : (s.setAdp a).dev.base = s.dev.base := rfl
@[simp] theorem State.setAdp_dev_adp (s : State) (a : Adaptation) : (s.setAdp a).dev.adp = a := rfl
@[simp] theorem State.setAdp_dev_busy (s : State) (a : Adaptation) : (s.setAdp a).dev.busy = s.dev.busy := rfl
@[simp] theorem State.setAdp_dev_ovf (s : State) (a : Adaptation) : (s.setAdp a).dev.ovf = s.dev.ovf := rfl
@[simp] theorem State.setAdp_dev_err (s : State) (a : Adaptation) : (s.setAdp a).dev.err = s.dev.err := rfl
@[simp] theorem State.setAdp_dev_result (s : State) (a : Adaptation) : (s.setAdp a).dev.result = s.dev.result := rfl
@[simp] theorem State.setAdp_dev_src (s : State) (a : Adaptation) : (s.setAdp a).dev.src = s.dev.src := rfl
@[simp] theorem State.setAdp_dev_srclen (s : State) (a : Adaptation) : (s.setAdp a).dev.srclen = s.dev.srclen := rfl
@[simp] theorem State.setAdp_dev_dst (s : State) (a : Adaptation) : (s.setAdp a).dev.dst = s.dev.dst := rfl
@[simp] theorem State.setAdp_dev_dstlen (s : State) (a : Adaptation) : (s.setAdp a).dev.dstlen = s.dev.dstlen := rfl
@[simp] theorem State.setAdp_dev_nsamp (s : State) (a : Adaptation) : (s.setAdp a).dev.nsamp = s.dev.nsamp := rfl
@[simp] theorem State.setAdp_dev_hid (s : State) (a : Adaptation) : (s.setAdp a).dev.hid = s.dev.hid := rfl

/-! ### `setPos` -/

@[simp] theorem State.setPos_mem (s : State) (n : Nat) : (s.setPos n).mem = s.mem := rfl
@[simp] theorem State.setPos_cfg (s : State) (n : Nat) : (s.setPos n).cfg = s.cfg := rfl
@[simp] theorem State.setPos_others (s : State) (n : Nat) : (s.setPos n).others = s.others := rfl
@[simp] theorem State.setPos_agenda (s : State) (n : Nat) : (s.setPos n).agenda = s.agenda := rfl
@[simp] theorem State.setPos_rdata (s : State) (n : Nat) : (s.setPos n).rdata = s.rdata := rfl
@[simp] theorem State.setPos_draws (s : State) (n : Nat) : (s.setPos n).draws = s.draws := rfl
@[simp] theorem State.setPos_dev_base (s : State) (n : Nat) : (s.setPos n).dev.base = s.dev.base := rfl
@[simp] theorem State.setPos_dev_adp (s : State) (n : Nat) : (s.setPos n).dev.adp = s.dev.adp := rfl
@[simp] theorem State.setPos_dev_busy (s : State) (n : Nat) : (s.setPos n).dev.busy = s.dev.busy := rfl
@[simp] theorem State.setPos_dev_ovf (s : State) (n : Nat) : (s.setPos n).dev.ovf = s.dev.ovf := rfl
@[simp] theorem State.setPos_dev_err (s : State) (n : Nat) : (s.setPos n).dev.err = s.dev.err := rfl
@[simp] theorem State.setPos_dev_result (s : State) (n : Nat) : (s.setPos n).dev.result = s.dev.result := rfl
@[simp] theorem State.setPos_dev_src (s : State) (n : Nat) : (s.setPos n).dev.src = s.dev.src := rfl
@[simp] theorem State.setPos_dev_srclen (s : State) (n : Nat) : (s.setPos n).dev.srclen = s.dev.srclen := rfl
@[simp] theorem State.setPos_dev_dst (s : State) (n : Nat) : (s.setPos n).dev.dst = s.dev.dst := rfl
@[simp] theorem State.setPos_dev_dstlen (s : State) (n : Nat) : (s.setPos n).dev.dstlen = s.dev.dstlen := rfl
@[simp] theorem State.setPos_dev_nsamp (s : State) (n : Nat) : (s.setPos n).dev.nsamp = s.dev.nsamp := rfl
@[simp] theorem State.setPos_dev_hid_cmdl (s : State) (n : Nat) : (s.setPos n).dev.hid.cmdl = s.dev.hid.cmdl := rfl
@[simp] theorem State.setPos_dev_hid_srcl (s : State) (n : Nat) : (s.setPos n).dev.hid.srcl = s.dev.hid.srcl := rfl
@[simp] theorem State.setPos_dev_hid_srclenl (s : State) (n : Nat) : (s.setPos n).dev.hid.srclenl = s.dev.hid.srclenl :=
  rfl
@[simp] theorem State.setPos_dev_hid_dstl (s : State) (n : Nat) : (s.setPos n).dev.hid.dstl = s.dev.hid.dstl := rfl
@[simp] theorem State.setPos_dev_hid_dstlenl (s : State) (n : Nat) : (s.setPos n).dev.hid.dstlenl = s.dev.hid.dstlenl :=
  rfl
@[simp] theorem State.setPos_dev_hid_nsampl (s : State) (n : Nat) : (s.setPos n).dev.hid.nsampl = s.dev.hid.nsampl :=
  rfl
@[simp] theorem State.setPos_dev_hid_pos (s : State) (n : Nat) : (s.setPos n).dev.hid.pos = BitVec.ofNat 32 n := rfl
@[simp] theorem State.setPos_dev_hid_hold (s : State) (n : Nat) : (s.setPos n).dev.hid.hold = s.dev.hid.hold := rfl

/-! ### `setHold` -/

@[simp] theorem State.setHold_mem (s : State) (c : Code) : (s.setHold c).mem = s.mem := rfl
@[simp] theorem State.setHold_cfg (s : State) (c : Code) : (s.setHold c).cfg = s.cfg := rfl
@[simp] theorem State.setHold_others (s : State) (c : Code) : (s.setHold c).others = s.others := rfl
@[simp] theorem State.setHold_agenda (s : State) (c : Code) : (s.setHold c).agenda = s.agenda := rfl
@[simp] theorem State.setHold_rdata (s : State) (c : Code) : (s.setHold c).rdata = s.rdata := rfl
@[simp] theorem State.setHold_draws (s : State) (c : Code) : (s.setHold c).draws = s.draws := rfl
@[simp] theorem State.setHold_dev_base (s : State) (c : Code) : (s.setHold c).dev.base = s.dev.base := rfl
@[simp] theorem State.setHold_dev_adp (s : State) (c : Code) : (s.setHold c).dev.adp = s.dev.adp := rfl
@[simp] theorem State.setHold_dev_busy (s : State) (c : Code) : (s.setHold c).dev.busy = s.dev.busy := rfl
@[simp] theorem State.setHold_dev_ovf (s : State) (c : Code) : (s.setHold c).dev.ovf = s.dev.ovf := rfl
@[simp] theorem State.setHold_dev_err (s : State) (c : Code) : (s.setHold c).dev.err = s.dev.err := rfl
@[simp] theorem State.setHold_dev_result (s : State) (c : Code) : (s.setHold c).dev.result = s.dev.result := rfl
@[simp] theorem State.setHold_dev_src (s : State) (c : Code) : (s.setHold c).dev.src = s.dev.src := rfl
@[simp] theorem State.setHold_dev_srclen (s : State) (c : Code) : (s.setHold c).dev.srclen = s.dev.srclen := rfl
@[simp] theorem State.setHold_dev_dst (s : State) (c : Code) : (s.setHold c).dev.dst = s.dev.dst := rfl
@[simp] theorem State.setHold_dev_dstlen (s : State) (c : Code) : (s.setHold c).dev.dstlen = s.dev.dstlen := rfl
@[simp] theorem State.setHold_dev_nsamp (s : State) (c : Code) : (s.setHold c).dev.nsamp = s.dev.nsamp := rfl
@[simp] theorem State.setHold_dev_hid_cmdl (s : State) (c : Code) : (s.setHold c).dev.hid.cmdl = s.dev.hid.cmdl := rfl
@[simp] theorem State.setHold_dev_hid_srcl (s : State) (c : Code) : (s.setHold c).dev.hid.srcl = s.dev.hid.srcl := rfl
@[simp] theorem State.setHold_dev_hid_srclenl (s : State) (c : Code) : (s.setHold c).dev.hid.srclenl = s.dev.hid.srclenl :=
  rfl
@[simp] theorem State.setHold_dev_hid_dstl (s : State) (c : Code) : (s.setHold c).dev.hid.dstl = s.dev.hid.dstl := rfl
@[simp] theorem State.setHold_dev_hid_dstlenl (s : State) (c : Code) : (s.setHold c).dev.hid.dstlenl = s.dev.hid.dstlenl :=
  rfl
@[simp] theorem State.setHold_dev_hid_nsampl (s : State) (c : Code) : (s.setHold c).dev.hid.nsampl = s.dev.hid.nsampl :=
  rfl
@[simp] theorem State.setHold_dev_hid_pos (s : State) (c : Code) : (s.setHold c).dev.hid.pos = s.dev.hid.pos := rfl
@[simp] theorem State.setHold_dev_hid_hold (s : State) (c : Code) : (s.setHold c).dev.hid.hold = c := rfl

/-! ### `writeByte` -/

@[simp] theorem State.writeByte_mem (s : State) (a : Nat) (v : Byte) : (s.writeByte a v).mem = s.mem.write a v := rfl
@[simp] theorem State.writeByte_cfg (s : State) (a : Nat) (v : Byte) : (s.writeByte a v).cfg = s.cfg := rfl
@[simp] theorem State.writeByte_others (s : State) (a : Nat) (v : Byte) : (s.writeByte a v).others = s.others := rfl
@[simp] theorem State.writeByte_agenda (s : State) (a : Nat) (v : Byte) : (s.writeByte a v).agenda = s.agenda := rfl
@[simp] theorem State.writeByte_rdata (s : State) (a : Nat) (v : Byte) : (s.writeByte a v).rdata = s.rdata := rfl
@[simp] theorem State.writeByte_draws (s : State) (a : Nat) (v : Byte) : (s.writeByte a v).draws = s.draws := rfl
@[simp] theorem State.writeByte_dev (s : State) (a : Nat) (v : Byte) : (s.writeByte a v).dev = s.dev := rfl

/-! ### `writeSample` -/

@[simp] theorem State.writeSample_mem (s : State) (a : Nat) (v : Sample) : (s.writeSample a v).mem = s.mem.writeSample a v :=
  rfl
@[simp] theorem State.writeSample_cfg (s : State) (a : Nat) (v : Sample) : (s.writeSample a v).cfg = s.cfg := rfl
@[simp] theorem State.writeSample_others (s : State) (a : Nat) (v : Sample) : (s.writeSample a v).others = s.others := rfl
@[simp] theorem State.writeSample_agenda (s : State) (a : Nat) (v : Sample) : (s.writeSample a v).agenda = s.agenda := rfl
@[simp] theorem State.writeSample_rdata (s : State) (a : Nat) (v : Sample) : (s.writeSample a v).rdata = s.rdata := rfl
@[simp] theorem State.writeSample_draws (s : State) (a : Nat) (v : Sample) : (s.writeSample a v).draws = s.draws := rfl
@[simp] theorem State.writeSample_dev (s : State) (a : Nat) (v : Sample) : (s.writeSample a v).dev = s.dev := rfl

/-! ### `finish` -/

@[simp] theorem State.finish_mem (s : State) (e : ErrCode) (v : Word) : (s.finish e v).mem = s.mem := rfl
@[simp] theorem State.finish_cfg (s : State) (e : ErrCode) (v : Word) : (s.finish e v).cfg = s.cfg := rfl
@[simp] theorem State.finish_others (s : State) (e : ErrCode) (v : Word) : (s.finish e v).others = s.others := rfl
@[simp] theorem State.finish_agenda (s : State) (e : ErrCode) (v : Word) : (s.finish e v).agenda = s.agenda := rfl
@[simp] theorem State.finish_rdata (s : State) (e : ErrCode) (v : Word) : (s.finish e v).rdata = s.rdata := rfl
@[simp] theorem State.finish_draws (s : State) (e : ErrCode) (v : Word) : (s.finish e v).draws = s.draws + 8 := rfl
@[simp] theorem State.finish_dev_base (s : State) (e : ErrCode) (v : Word) : (s.finish e v).dev.base = s.dev.base := rfl
@[simp] theorem State.finish_dev_adp (s : State) (e : ErrCode) (v : Word) : (s.finish e v).dev.adp = s.dev.adp := rfl
@[simp] theorem State.finish_dev_busy (s : State) (e : ErrCode) (v : Word) : (s.finish e v).dev.busy = false := rfl
@[simp] theorem State.finish_dev_ovf (s : State) (e : ErrCode) (v : Word) : (s.finish e v).dev.ovf = s.dev.ovf := rfl
@[simp] theorem State.finish_dev_err (s : State) (e : ErrCode) (v : Word) : (s.finish e v).dev.err = e := rfl
@[simp] theorem State.finish_dev_result (s : State) (e : ErrCode) (v : Word) : (s.finish e v).dev.result = v := rfl
@[simp] theorem State.finish_dev_src (s : State) (e : ErrCode) (v : Word) : (s.finish e v).dev.src = s.dev.src := rfl
@[simp] theorem State.finish_dev_srclen (s : State) (e : ErrCode) (v : Word) : (s.finish e v).dev.srclen = s.dev.srclen :=
  rfl
@[simp] theorem State.finish_dev_dst (s : State) (e : ErrCode) (v : Word) : (s.finish e v).dev.dst = s.dev.dst := rfl
@[simp] theorem State.finish_dev_dstlen (s : State) (e : ErrCode) (v : Word) : (s.finish e v).dev.dstlen = s.dev.dstlen :=
  rfl
@[simp] theorem State.finish_dev_nsamp (s : State) (e : ErrCode) (v : Word) : (s.finish e v).dev.nsamp = s.dev.nsamp :=
  rfl
@[simp] theorem State.finish_dev_hid (s : State) (e : ErrCode) (v : Word) : (s.finish e v).dev.hid = Hidden.free s.draws :=
  rfl

/-! ### `complete` -/

@[simp] theorem State.complete_mem (s : State) (v : Word) : (s.complete v).mem = s.mem := rfl
@[simp] theorem State.complete_cfg (s : State) (v : Word) : (s.complete v).cfg = s.cfg := rfl
@[simp] theorem State.complete_others (s : State) (v : Word) : (s.complete v).others = s.others := rfl
@[simp] theorem State.complete_agenda (s : State) (v : Word) : (s.complete v).agenda = s.agenda := rfl
@[simp] theorem State.complete_rdata (s : State) (v : Word) : (s.complete v).rdata = s.rdata := rfl
@[simp] theorem State.complete_draws (s : State) (v : Word) : (s.complete v).draws = s.draws + 8 := rfl
@[simp] theorem State.complete_dev_base (s : State) (v : Word) : (s.complete v).dev.base = s.dev.base := rfl
@[simp] theorem State.complete_dev_adp (s : State) (v : Word) : (s.complete v).dev.adp = s.dev.adp := rfl
@[simp] theorem State.complete_dev_busy (s : State) (v : Word) : (s.complete v).dev.busy = false := rfl
@[simp] theorem State.complete_dev_ovf (s : State) (v : Word) : (s.complete v).dev.ovf = s.dev.ovf := rfl
@[simp] theorem State.complete_dev_err (s : State) (v : Word) : (s.complete v).dev.err = .ok := rfl
@[simp] theorem State.complete_dev_result (s : State) (v : Word) : (s.complete v).dev.result = v := rfl
@[simp] theorem State.complete_dev_src (s : State) (v : Word) : (s.complete v).dev.src = s.dev.src := rfl
@[simp] theorem State.complete_dev_srclen (s : State) (v : Word) : (s.complete v).dev.srclen = s.dev.srclen := rfl
@[simp] theorem State.complete_dev_dst (s : State) (v : Word) : (s.complete v).dev.dst = s.dev.dst := rfl
@[simp] theorem State.complete_dev_dstlen (s : State) (v : Word) : (s.complete v).dev.dstlen = s.dev.dstlen := rfl
@[simp] theorem State.complete_dev_nsamp (s : State) (v : Word) : (s.complete v).dev.nsamp = s.dev.nsamp := rfl
@[simp] theorem State.complete_dev_hid (s : State) (v : Word) : (s.complete v).dev.hid = Hidden.free s.draws := rfl

/-! ### `fail` -/

@[simp] theorem State.fail_mem (s : State) (e : ErrCode) : (s.fail e).mem = s.mem := rfl
@[simp] theorem State.fail_cfg (s : State) (e : ErrCode) : (s.fail e).cfg = s.cfg := rfl
@[simp] theorem State.fail_others (s : State) (e : ErrCode) : (s.fail e).others = s.others := rfl
@[simp] theorem State.fail_agenda (s : State) (e : ErrCode) : (s.fail e).agenda = s.agenda := rfl
@[simp] theorem State.fail_rdata (s : State) (e : ErrCode) : (s.fail e).rdata = s.rdata := rfl
@[simp] theorem State.fail_draws (s : State) (e : ErrCode) : (s.fail e).draws = s.draws + 8 := rfl
@[simp] theorem State.fail_dev_base (s : State) (e : ErrCode) : (s.fail e).dev.base = s.dev.base := rfl
@[simp] theorem State.fail_dev_adp (s : State) (e : ErrCode) : (s.fail e).dev.adp = s.dev.adp := rfl
@[simp] theorem State.fail_dev_busy (s : State) (e : ErrCode) : (s.fail e).dev.busy = false := rfl
@[simp] theorem State.fail_dev_ovf (s : State) (e : ErrCode) : (s.fail e).dev.ovf = s.dev.ovf := rfl
@[simp] theorem State.fail_dev_err (s : State) (e : ErrCode) : (s.fail e).dev.err = e := rfl
@[simp] theorem State.fail_dev_result (s : State) (e : ErrCode) : (s.fail e).dev.result = 0xFFFFFFFF := rfl
@[simp] theorem State.fail_dev_src (s : State) (e : ErrCode) : (s.fail e).dev.src = s.dev.src := rfl
@[simp] theorem State.fail_dev_srclen (s : State) (e : ErrCode) : (s.fail e).dev.srclen = s.dev.srclen := rfl
@[simp] theorem State.fail_dev_dst (s : State) (e : ErrCode) : (s.fail e).dev.dst = s.dev.dst := rfl
@[simp] theorem State.fail_dev_dstlen (s : State) (e : ErrCode) : (s.fail e).dev.dstlen = s.dev.dstlen := rfl
@[simp] theorem State.fail_dev_nsamp (s : State) (e : ErrCode) : (s.fail e).dev.nsamp = s.dev.nsamp := rfl
@[simp] theorem State.fail_dev_hid (s : State) (e : ErrCode) : (s.fail e).dev.hid = Hidden.free s.draws := rfl

/-! ### `issue` -/

@[simp] theorem State.issue_mem (s : State) (w : Word) : (s.issue w).mem = s.mem := rfl
@[simp] theorem State.issue_cfg (s : State) (w : Word) : (s.issue w).cfg = s.cfg := rfl
@[simp] theorem State.issue_others (s : State) (w : Word) : (s.issue w).others = s.others := rfl
@[simp] theorem State.issue_agenda (s : State) (w : Word) : (s.issue w).agenda = s.agenda := rfl
@[simp] theorem State.issue_rdata (s : State) (w : Word) : (s.issue w).rdata = s.rdata := rfl
@[simp] theorem State.issue_draws (s : State) (w : Word) : (s.issue w).draws = s.draws := rfl
@[simp] theorem State.issue_dev_base (s : State) (w : Word) : (s.issue w).dev.base = s.dev.base := rfl
@[simp] theorem State.issue_dev_adp (s : State) (w : Word) : (s.issue w).dev.adp = s.dev.adp := rfl
@[simp] theorem State.issue_dev_busy (s : State) (w : Word) : (s.issue w).dev.busy = true := rfl
@[simp] theorem State.issue_dev_ovf (s : State) (w : Word) : (s.issue w).dev.ovf = false := rfl
@[simp] theorem State.issue_dev_err (s : State) (w : Word) : (s.issue w).dev.err = .ok := rfl
@[simp] theorem State.issue_dev_result (s : State) (w : Word) : (s.issue w).dev.result = s.dev.result := rfl
@[simp] theorem State.issue_dev_src (s : State) (w : Word) : (s.issue w).dev.src = s.dev.src := rfl
@[simp] theorem State.issue_dev_srclen (s : State) (w : Word) : (s.issue w).dev.srclen = s.dev.srclen := rfl
@[simp] theorem State.issue_dev_dst (s : State) (w : Word) : (s.issue w).dev.dst = s.dev.dst := rfl
@[simp] theorem State.issue_dev_dstlen (s : State) (w : Word) : (s.issue w).dev.dstlen = s.dev.dstlen := rfl
@[simp] theorem State.issue_dev_nsamp (s : State) (w : Word) : (s.issue w).dev.nsamp = s.dev.nsamp := rfl
@[simp] theorem State.issue_dev_hid (s : State) (w : Word) : (s.issue w).dev.hid = s.dev.latch s.cfg w := rfl

/-! ### `resetRegisters` -/

@[simp] theorem State.resetRegisters_mem (s : State) : (s.resetRegisters).mem = s.mem := rfl
@[simp] theorem State.resetRegisters_cfg (s : State) : (s.resetRegisters).cfg = s.cfg := rfl
@[simp] theorem State.resetRegisters_others (s : State) : (s.resetRegisters).others = s.others := rfl
@[simp] theorem State.resetRegisters_agenda (s : State) : (s.resetRegisters).agenda = s.agenda := rfl
@[simp] theorem State.resetRegisters_rdata (s : State) : (s.resetRegisters).rdata = s.rdata := rfl
@[simp] theorem State.resetRegisters_draws (s : State) : (s.resetRegisters).draws = s.draws + 8 := rfl
@[simp] theorem State.resetRegisters_dev (s : State) : (s.resetRegisters).dev = Instance.resetWith s.dev.base (Hidden.free s.draws) :=
  rfl

/-! ### Latching (10_state.md R45, R216) -/

@[simp] theorem Instance.latch_cmdl (c : Params) (d : Instance) (w : Word) : (d.latch c w).cmdl = w := rfl
@[simp] theorem Instance.latch_srcl (c : Params) (d : Instance) (w : Word) : (d.latch c w).srcl = c.addrBits d.src :=
  rfl
@[simp] theorem Instance.latch_srclenl (c : Params) (d : Instance) (w : Word) : (d.latch c w).srclenl = d.srclen := rfl
@[simp] theorem Instance.latch_dstl (c : Params) (d : Instance) (w : Word) : (d.latch c w).dstl = c.addrBits d.dst :=
  rfl
@[simp] theorem Instance.latch_dstlenl (c : Params) (d : Instance) (w : Word) : (d.latch c w).dstlenl = d.dstlen := rfl
@[simp] theorem Instance.latch_nsampl (c : Params) (d : Instance) (w : Word) : (d.latch c w).nsampl = d.nsamp := rfl

/-- An address register keeps its low `ADDR_W` bits (R39). -/
theorem Params.addrBits_toNat (c : Params) (v : Word) : (c.addrBits v).toNat = v.toNat % 2 ^ c.addrW := by
  unfold Params.addrBits
  rw [BitVec.toNat_ofNat]
  exact Nat.mod_eq_of_lt (Nat.lt_of_le_of_lt (Nat.mod_le _ _) v.isLt)

end Sys2Proof.Machine
end

