-- ==== Sys2Proof/Laws/Plan.lean ====
section
/-! SUPPORT. Ranges in terms of their bytes, and what the checks of the buffer commands say when they pass. -/
namespace Sys2Proof.Machine

theorem Range.contains_iff (r : Range) (a : Nat) : r.contains a = true ↔ r.Has a := by
  simp [Range.contains, Range.Has]

/-- Two ranges overlap exactly when they share a byte (20_memory.md R77). -/
theorem Range.overlaps_iff (r q : Range) : r.overlaps q = true ↔ ∃ a, r.Has a ∧ q.Has a := by
  simp only [Range.overlaps, Bool.and_eq_true, decide_eq_true_eq, Range.Has]
  constructor
  · rintro ⟨⟨⟨h1, h2⟩, h3⟩, h4⟩
    exact ⟨max r.base q.base, by omega⟩
  · rintro ⟨a, h⟩
    omega

theorem Range.overlaps_eq_false_iff (r q : Range) : r.overlaps q = false ↔ ∀ a, ¬(r.Has a ∧ q.Has a) := by
  rw [← Bool.not_eq_true, Range.overlaps_iff]
  exact not_exists

theorem Range.fits_iff (r : Range) (w : Nat) : r.fits w = true ↔ r.Below w := by
  simp [Range.fits, Range.Below]

/-- A byte of a range that fits lies below the top of the address space (R69). -/
theorem Range.lt_of_fits {r : Range} {w a : Nat} (h : r.fits w = true) (ha : r.Has a) : a < 2 ^ w := by
  rw [Range.fits_iff] at h
  unfold Range.Below at h
  unfold Range.Has at ha
  omega

theorem halfUp_eq (n : Nat) : halfUp n = (n + 1) / 2 := by
  simp [halfUp, Nat.shiftRight_succ]

theorem shiftRight_one (n : Nat) : n >>> 1 = n / 2 := by
  simp [Nat.shiftRight_succ]

/-- What the range check answers. -/
theorem Plan.checked_eq_ok {c : Params} {p q : Plan} (h : p.checked c = .ok q) :
    q = p ∧ p.read.fits c.addrW = true ∧ p.write.fits c.addrW = true := by
  unfold Plan.checked at h
  split at h
  · rename_i hf
    rw [Bool.and_eq_true] at hf
    exact ⟨(Except.ok.inj h).symm, hf⟩
  · cases h

/-- ENCB's checks pass exactly with these facts, and the plan is ENCB's (R150). -/
theorem encbPlan_eq_ok {c : Params} {h : Hidden} {p : Plan} (hp : encbPlan c h = .ok p) :
    p = encbRanges h ∧ h.srclenl.toNat % 2 = 0 ∧ p.write.len ≤ h.dstlenl.toNat ∧
      p.read.fits c.addrW = true ∧ p.write.fits c.addrW = true := by
  unfold encbPlan at hp
  split at hp
  · cases hp
  · split at hp
    · cases hp
    · obtain ⟨rfl, h1, h2⟩ := Plan.checked_eq_ok hp
      exact ⟨rfl, by omega, by omega, h1, h2⟩

/-- DECB's checks pass exactly with these facts, and the plan is DECB's (R160). -/
theorem decbPlan_eq_ok {c : Params} {h : Hidden} {p : Plan} (hp : decbPlan c h = .ok p) :
    p = decbRanges h ∧ p.read.len ≤ h.srclenl.toNat ∧ p.write.len ≤ h.dstlenl.toNat ∧
      p.read.fits c.addrW = true ∧ p.write.fits c.addrW = true := by
  unfold decbPlan at hp
  split at hp
  · cases hp
  · split at hp
    · cases hp
    · obtain ⟨rfl, h1, h2⟩ := Plan.checked_eq_ok hp
      exact ⟨rfl, by omega, by omega, h1, h2⟩

/-- The plan of a latched command is that of ENCB or of DECB. -/
theorem commandPlan_eq_some {c : Params} {h : Hidden} {p : Plan} (hp : commandPlan c h = some p) :
    encbPlan c h = .ok p ∨ decbPlan c h = .ok p := by
  unfold commandPlan at hp
  split at hp
  · left
    cases he : encbPlan c h with
    | error e => rw [he] at hp; cases hp
    | ok q => rw [he] at hp; cases hp; rfl
  · right
    cases he : decbPlan c h with
    | error e => rw [he] at hp; cases hp
    | ok q => rw [he] at hp; cases hp; rfl
  · cases hp

/-- A byte a running command reads or writes lies in the address space. -/
theorem Instance.running_lt {c : Params} {d : Instance} {p : Plan} (hp : d.running c = some p) {a : Nat}
    (ha : p.read.Has a ∨ p.write.Has a) : a < 2 ^ c.addrW := by
  unfold Instance.running at hp
  split at hp
  · have hf : p.read.fits c.addrW = true ∧ p.write.fits c.addrW = true := by
      rcases commandPlan_eq_some hp with h | h
      · exact (encbPlan_eq_ok h).2.2.2
      · exact (decbPlan_eq_ok h).2.2.2
    exact ha.elim (Range.lt_of_fits hf.1) (Range.lt_of_fits hf.2)
  · cases hp

theorem Params.touches_eq_false {c : Params} {k : RegionKind} {r : Range}
    (h : ∀ g ∈ c.regions, g.kind = k → ∀ a, g.range.Has a → ¬r.Has a) : c.touches k r = false := by
  unfold Params.touches
  rw [List.any_eq_false]
  intro g hg hk
  rw [Bool.and_eq_true, decide_eq_true_eq, Range.overlaps_iff] at hk
  obtain ⟨hk, a, ha⟩ := hk
  exact h g hg hk a ha.1 ha.2

theorem Params.touches_eq_true {c : Params} {k : RegionKind} {r : Range} {g : Region} {a : Nat} (hg : g ∈ c.regions)
    (hk : g.kind = k) (h1 : g.range.Has a) (h2 : r.Has a) : c.touches k r = true := by
  unfold Params.touches
  rw [List.any_eq_true]
  exact ⟨g, hg, by simp [hk, (Range.overlaps_iff g.range r).2 ⟨a, h1, h2⟩]⟩

/-- Is a byte in a running command's read or write range (R72), as a proposition. -/
theorem State.inRunningRange_iff (s : State) (a : Nat) :
    s.inRunningRange a = true ↔ ∃ d ∈ s.instances, ∃ p, d.running s.cfg = some p ∧ (p.read.Has a ∨ p.write.Has a) := by
  unfold State.inRunningRange
  rw [List.any_eq_true]
  refine exists_congr fun d => and_congr_right fun _ => ?_
  cases d.running s.cfg <;> simp [Range.contains_iff]

/-- Is a byte in a running command's write range (R72), as a proposition. -/
theorem State.inRunningWrite_iff (s : State) (a : Nat) :
    s.inRunningWrite a = true ↔ ∃ d ∈ s.instances, ∃ p, d.running s.cfg = some p ∧ p.write.Has a := by
  unfold State.inRunningWrite
  rw [List.any_eq_true]
  refine exists_congr fun d => and_congr_right fun _ => ?_
  cases d.running s.cfg <;> simp [Range.contains_iff]

/-- Nothing stands in the way of a command whose ranges are clear: it is neither refused nor stuck. -/
theorem State.planRefusal_of_clear {s : State} {p : Plan} (h : s.Clear p.read p.write) :
    s.planRefusal p = none ∧ p.admitted s.cfg = true := by
  have ha : p.read.overlaps p.write = false := (Range.overlaps_eq_false_iff _ _).2 h.apart
  have hr : (s.others.any fun d => p.races (d.running s.cfg)) = false := by
    rw [List.any_eq_false]
    intro d hd
    cases hq : d.running s.cfg with
    | none => simp [Plan.races]
    | some q =>
      have := h.no_race d hd q hq
      simp only [Plan.races, Bool.or_eq_true, Range.overlaps_iff, not_or]
      exact ⟨⟨fun ⟨a, ha⟩ => (this a).1 ha, fun ⟨a, ha⟩ => (this a).2.1 ha⟩, fun ⟨a, ha⟩ => (this a).2.2 ha⟩
  have t1 (k : RegionKind) (hk : k ≠ .noWrites) : s.cfg.touches k p.read = false :=
    Params.touches_eq_false fun g hg e a ha => (h.plain g hg a ha).1 (e ▸ hk)
  have t2 (k : RegionKind) (hk : k ≠ .noReads) : s.cfg.touches k p.write = false :=
    Params.touches_eq_false fun g hg e a ha => (h.plain g hg a ha).2 (e ▸ hk)
  constructor
  · unfold State.planRefusal
    rw [if_neg (by simp [ha]), if_neg (by rw [hr]; decide), if_neg (by simp [t1, t2])]
  · simp [Plan.admitted, t1, t2]

/-- A plan that is not refused does not overlap itself. -/
theorem State.not_overlaps_of_planRefusal {s : State} {p : Plan} (h : s.planRefusal p = none) :
    p.read.overlaps p.write = false := by
  unfold State.planRefusal at h
  split at h
  · cases h
  · simpa using ‹¬p.read.overlaps p.write = true›

end Sys2Proof.Machine
end

