-- ==== Sys2Proof/Laws/Buffer.lean ====
section
/-! SUPPORT. What the buffer commands can do: the inversion of their shared ending, and what one sample and the whole
loop leave alone. -/
namespace Sys2Proof.Machine

/-- Everything `runPlan` can answer. -/
theorem runPlan_cases (plan : Except ErrCode Plan) (cont : Bool) (loop : Plan → State → State) (s : State) :
    (∃ e, plan = .error e ∧ runPlan plan cont loop s = .next (s.fail e)) ∨
    (∃ p r, plan = .ok p ∧ s.planRefusal p = some r ∧ runPlan plan cont loop s = .refused r) ∨
    (∃ p, plan = .ok p ∧ s.planRefusal p = none ∧ p.admitted s.cfg = false ∧ runPlan plan cont loop s = .next s) ∨
    (∃ p, plan = .ok p ∧ s.planRefusal p = none ∧ p.admitted s.cfg = true ∧
      runPlan plan cont loop s =
        .next ((loop p (s.setAdp (s.startAdp cont))).complete (BitVec.ofNat 32 p.write.len))) := by
  cases plan with
  | error e => exact .inl ⟨e, rfl, rfl⟩
  | ok p =>
    right
    cases hr : s.planRefusal p with
    | some r => exact .inl ⟨p, r, rfl, hr, by simp [runPlan, hr]⟩
    | none =>
      right
      cases ha : p.admitted s.cfg with
      | false => exact .inl ⟨p, rfl, hr, ha, by simp [runPlan, hr, ha]⟩
      | true => exact .inr ⟨p, rfl, hr, ha, by simp [runPlan, hr, ha]⟩

/-- `t` differs from `s` only in `PRED`, `INDEX`, the hidden state and memory. -/
structure OnlyStreams (s t : State) : Prop where
  others : t.others = s.others
  cfg : t.cfg = s.cfg
  agenda : t.agenda = s.agenda
  rdata : t.rdata = s.rdata
  draws : t.draws = s.draws
  busy : t.dev.busy = s.dev.busy
  err : t.dev.err = s.dev.err
  result : t.dev.result = s.dev.result
  operands : s.dev.SameOperands t.dev

theorem OnlyStreams.refl (s : State) : OnlyStreams s s :=
  ⟨rfl, rfl, rfl, rfl, rfl, rfl, rfl, rfl, ⟨rfl, rfl, rfl, rfl, rfl, rfl, rfl⟩⟩

theorem Instance.SameOperands.trans {d e f : Instance} (h : d.SameOperands e) (k : e.SameOperands f) :
    d.SameOperands f :=
  ⟨k.base.trans h.base, k.ovf.trans h.ovf, k.src.trans h.src, k.srclen.trans h.srclen, k.dst.trans h.dst,
    k.dstlen.trans h.dstlen,
    k.nsamp.trans h.nsamp⟩

theorem OnlyStreams.trans {s t u : State} (h : OnlyStreams s t) (k : OnlyStreams t u) : OnlyStreams s u :=
  ⟨k.others.trans h.others, k.cfg.trans h.cfg, k.agenda.trans h.agenda, k.rdata.trans h.rdata, k.draws.trans h.draws,
    k.busy.trans h.busy, k.err.trans h.err, k.result.trans h.result, h.operands.trans k.operands⟩

theorem OnlyStreams.setAdp (s : State) (a : Adaptation) : OnlyStreams s (s.setAdp a) :=
  ⟨rfl, rfl, rfl, rfl, rfl, rfl, rfl, rfl, ⟨rfl, rfl, rfl, rfl, rfl, rfl, rfl⟩⟩

/-! ### ENCB -/

theorem encbSample_onlyStreams (p : Plan) (pos : Nat) (s : State) : OnlyStreams s (encbSample p pos s) := by
  unfold encbSample packCode
  repeat' split
  all_goals exact ⟨rfl, rfl, rfl, rfl, rfl, rfl, rfl, rfl, ⟨rfl, rfl, rfl, rfl, rfl, rfl, rfl⟩⟩

theorem encbLoop_onlyStreams (p : Plan) (n pos : Nat) (s : State) : OnlyStreams s (encbLoop p n pos s) := by
  induction n generalizing pos s with
  | zero => exact OnlyStreams.refl s
  | succ n ih => exact (encbSample_onlyStreams p pos s).trans (ih _ _)

@[simp] theorem packCode_adp (p : Plan) (pos : Nat) (code : Code) (s : State) :
    (packCode p pos code s).dev.adp = s.dev.adp := by
  unfold packCode
  repeat' split
  all_goals rfl

/-- The encoder step of a sample (R150). -/
theorem encbSample_adp (p : Plan) (pos : Nat) (s : State) :
    (encbSample p pos s).dev.adp =
      (encodeStep s.cfg s.dev.adp (s.mem.readSample (p.read.base + 2 * pos))).2 := by
  simp [encbSample]

/-- What the packer writes: nothing, or one byte of the destination (R141). -/
theorem packCode_mem (p : Plan) (pos : Nat) (code : Code) (s : State) :
    (packCode p pos code s).mem = s.mem ∨
      ∃ v, (packCode p pos code s).mem = s.mem.write (p.write.base + pos / 2) v ∧
        (pos % 2 = 1 ∨ pos + 1 = p.samples) := by
  unfold packCode
  rw [shiftRight_one]
  split
  · split
    · exact .inr ⟨_, rfl, .inr ‹_›⟩
    · exact .inl rfl
  · exact .inr ⟨_, rfl, .inl (by omega)⟩

/-- A sample of ENCB writes nothing, or one byte of the destination. -/
theorem encbSample_mem (p : Plan) (pos : Nat) (s : State) :
    (encbSample p pos s).mem = s.mem ∨
      ∃ v, (encbSample p pos s).mem = s.mem.write (p.write.base + pos / 2) v := by
  unfold encbSample
  rcases packCode_mem p pos (encodeStep s.cfg s.dev.adp (s.mem.readSample (p.read.base + 2 * pos))).1
    ((s.setPos pos).setAdp (encodeStep s.cfg s.dev.adp (s.mem.readSample (p.read.base + 2 * pos))).2) with h | ⟨v, h, -⟩
  · exact .inl h
  · exact .inr ⟨v, h⟩

theorem encbLoop_wf (p : Plan) (n pos : Nat) (s : State) (h : s.mem.wf) : (encbLoop p n pos s).mem.wf := by
  induction n generalizing pos s with
  | zero => exact h
  | succ n ih =>
    refine ih _ _ ?_
    rcases encbSample_mem p pos s with h' | ⟨v, h'⟩ <;> rw [h']
    · exact h
    · exact Memory.write_wf h _ _

/-- ENCB's loop writes only the bytes of its own samples (R153). -/
theorem encbLoop_read_outside (p : Plan) (n pos : Nat) (s : State) (a : Nat)
    (ha : a < p.write.base + pos / 2 ∨ p.write.base + (pos + n + 1) / 2 ≤ a) :
    (encbLoop p n pos s).mem.read a = s.mem.read a := by
  induction n generalizing pos s with
  | zero => rfl
  | succ n ih =>
    refine (ih (pos + 1) _ (by omega)).trans ?_
    rcases encbSample_mem p pos s with h | ⟨v, h⟩ <;> rw [h]
    exact Memory.read_write_ne _ _ (by omega)

theorem encbLoop_mem_lt (p : Plan) (n pos : Nat) (s : State) (b : Nat) (hs : ∀ x ∈ s.mem, x.1 < b)
    (hb : n ≠ 0 → p.write.base + (pos + n + 1) / 2 ≤ b) : ∀ x ∈ (encbLoop p n pos s).mem, x.1 < b := by
  induction n generalizing pos s with
  | zero => exact hs
  | succ n ih =>
    refine ih _ _ (fun x hx => ?_) (fun _ => by have := hb (by omega); omega)
    have := hb (by omega)
    rcases encbSample_mem p pos s with h | ⟨v, h⟩ <;> rw [h] at hx
    · exact hs x hx
    · rcases Memory.mem_write hx with hx | ⟨rfl, -⟩
      · exact hs x hx
      · show p.write.base + pos / 2 < b
        omega

/-- ENCB's loop keeps `INDEX` in [0, 88] (10_state.md R32). -/
theorem encbLoop_index_le (p : Plan) (n pos : Nat) (s : State) (h : s.dev.adp.index.toNat ≤ 88) :
    (encbLoop p n pos s).dev.adp.index.toNat ≤ 88 := by
  induction n generalizing pos s with
  | zero => exact h
  | succ n ih =>
    refine ih _ _ ?_
    rw [encbSample_adp, encodeStep_snd]
    exact adapt_index_le _ _ _

/-! ### DECB -/

theorem decbSample_onlyStreams (p : Plan) (pos : Nat) (s : State) : OnlyStreams s (decbSample p pos s) := by
  unfold decbSample unpackCode
  split <;> exact ⟨rfl, rfl, rfl, rfl, rfl, rfl, rfl, rfl, ⟨rfl, rfl, rfl, rfl, rfl, rfl, rfl⟩⟩

theorem decbLoop_onlyStreams (p : Plan) (n pos : Nat) (s : State) : OnlyStreams s (decbLoop p n pos s) := by
  induction n generalizing pos s with
  | zero => exact OnlyStreams.refl s
  | succ n ih => exact (decbSample_onlyStreams p pos s).trans (ih _ _)

/-- The decoder step of a code (R160). -/
theorem decbSample_adp (p : Plan) (pos : Nat) (s : State) :
    (decbSample p pos s).dev.adp = adapt s.cfg s.dev.adp (unpackCode p pos (s.setPos pos)).1 := by
  simp [decbSample]

/-- A sample of DECB writes the new prediction to the sample's two bytes (R160). -/
theorem decbSample_mem (p : Plan) (pos : Nat) (s : State) :
    (decbSample p pos s).mem = s.mem.writeSample (p.write.base + 2 * pos) (decbSample p pos s).dev.adp.pred := by
  unfold decbSample unpackCode
  split <;> rfl

theorem decbLoop_wf (p : Plan) (n pos : Nat) (s : State) (h : s.mem.wf) : (decbLoop p n pos s).mem.wf := by
  induction n generalizing pos s with
  | zero => exact h
  | succ n ih =>
    refine ih _ _ ?_
    rw [decbSample_mem]
    exact Memory.writeSample_wf h _ _

/-- DECB's loop writes only the two bytes of each of its samples (R162). -/
theorem decbLoop_read_outside (p : Plan) (n pos : Nat) (s : State) (a : Nat)
    (ha : a < p.write.base + 2 * pos ∨ p.write.base + 2 * (pos + n) ≤ a) :
    (decbLoop p n pos s).mem.read a = s.mem.read a := by
  induction n generalizing pos s with
  | zero => rfl
  | succ n ih =>
    refine (ih (pos + 1) _ (by omega)).trans ?_
    rw [decbSample_mem]
    exact Memory.read_writeSample_ne _ _ (by omega) (by omega)

theorem decbLoop_mem_lt (p : Plan) (n pos : Nat) (s : State) (b : Nat) (hs : ∀ x ∈ s.mem, x.1 < b)
    (hb : n ≠ 0 → p.write.base + 2 * (pos + n) ≤ b) : ∀ x ∈ (decbLoop p n pos s).mem, x.1 < b := by
  induction n generalizing pos s with
  | zero => exact hs
  | succ n ih =>
    refine ih _ _ (fun x hx => ?_) (fun _ => by have := hb (by omega); omega)
    have := hb (by omega)
    rw [decbSample_mem] at hx
    rcases Memory.mem_writeSample hx with hx | hx | hx
    · exact hs x hx
    · omega
    · omega

/-- DECB's loop keeps `INDEX` in [0, 88] (10_state.md R32). -/
theorem decbLoop_index_le (p : Plan) (n pos : Nat) (s : State) (h : s.dev.adp.index.toNat ≤ 88) :
    (decbLoop p n pos s).dev.adp.index.toNat ≤ 88 := by
  induction n generalizing pos s with
  | zero => exact h
  | succ n ih =>
    refine ih _ _ ?_
    rw [decbSample_adp]
    exact adapt_index_le _ _ _

end Sys2Proof.Machine
end

