-- ==== Sys2Proof/Laws/PerInstr.lean ====
section
/-! SUPPORT. The per-instruction family `Spelling`: the word of a command matches the row of that command and no other
(30_encoding.md R83). -/
namespace Sys2Proof.Laws.Spelling

/-- The word of `i` matches exactly the row of `i`. -/
def Statement (i : Instr) : Prop := ∀ m, spells (encode i) m = true ↔ m = i.mnemonic

/-- The `OP` of a row (R81). -/
def op (m : Mnemonic) : BitVec 4 := opField m.row.pattern

theorem spells_iff (w : Word) (m : Mnemonic) : spells w m = true ↔ w &&& m.row.mask = m.row.pattern := by
  simp [spells]

/-- Every row fixes the whole of `OP`. -/
theorem opField_of_spells {w : Word} {m : Mnemonic} (h : spells w m = true) : opField w = op m := by
  rw [spells_iff] at h
  have hm : opField m.row.mask = 0xF#4 := by cases m <;> rfl
  unfold op
  rw [← h]
  unfold opField at *
  rw [BitVec.extractLsb'_and, hm]
  exact (BitVec.and_allOnes).symm

theorem op_injective {m n : Mnemonic} (h : op m = op n) : m = n := by
  revert h
  cases m <;> cases n <;> decide

/-- A word that matches its own row matches no other. -/
theorem statement_of_own {i : Instr} (h : spells (encode i) i.mnemonic = true) : Statement i := by
  intro m
  constructor
  · intro hm
    exact op_injective ((opField_of_spells hm).symm.trans (opField_of_spells h))
  · rintro rfl
    exact h

theorem init : Statement .init := statement_of_own (by decide)

theorem ldst (p : Sample) (k : StepIndex) : Statement (.ldst p k) := by
  refine statement_of_own ((spells_iff _ _).2 ?_)
  show (p ++ (0#1 ++ (k ++ 0x02#8)) : BitVec 32) &&& (0#16 ++ (1#1 ++ (0#7 ++ 0xFF#8))) = 0#16 ++ (0#1 ++ (0#7 ++ 2#8))
  rw [BitVec.and_append, BitVec.and_append, BitVec.and_append]
  simp

theorem encs (x : Sample) : Statement (.encs x) := by
  refine statement_of_own ((spells_iff _ _).2 ?_)
  show (x ++ 0x0003#16 : BitVec 32) &&& (0#16 ++ 0xFFFF#16) = 0#16 ++ 3#16
  rw [BitVec.and_append]
  simp

theorem decs (c : Code) : Statement (.decs c) := statement_of_own (by revert c; decide)

theorem encb (cont : Bool) : Statement (.encb cont) := statement_of_own (by cases cont <;> decide)

theorem decb (cont : Bool) : Statement (.decb cont) := statement_of_own (by cases cont <;> decide)

end Sys2Proof.Laws.Spelling
end

