-- ==== Sys2Proof/Laws/Encoding.lean ====
section
/-! SUPPORT. Command words and their fields as numbers (30_encoding.md R80-R87), and the cases of the decoder. -/
namespace Sys2Proof

/-- Concatenation as a number (00_scope.md R11). -/
theorem toNat_concat {n m : Nat} (x : BitVec n) (y : BitVec m) : (x ++ y).toNat = x.toNat * 2 ^ m + y.toNat := by
  rw [BitVec.toNat_append, ← Nat.shiftLeft_add_eq_or_of_lt y.isLt, Nat.shiftLeft_eq]

theorem encode_ldst_toNat (p : Sample) (k : StepIndex) :
    (encode (.ldst p k)).toNat = p.toNat * 65536 + k.toNat * 256 + 2 := by
  show (p ++ (0#1 ++ (k ++ 0x02#8))).toNat = _
  simp only [toNat_concat, BitVec.toNat_ofNat]
  omega

theorem encode_encs_toNat (x : Sample) : (encode (.encs x)).toNat = x.toNat * 65536 + 3 := by
  show (x ++ 0x0003#16).toNat = _
  simp only [toNat_concat, BitVec.toNat_ofNat]
  omega

theorem encode_decs_toNat (c : Code) : (encode (.decs c)).toNat = c.toNat * 256 + 4 := by revert c; decide

theorem encode_encb_toNat (cont : Bool) : (encode (.encb cont)).toNat = cont.toNat * 16 + 5 := by revert cont; decide

theorem encode_decb_toNat (cont : Bool) : (encode (.decb cont)).toNat = cont.toNat * 16 + 6 := by revert cont; decide

theorem immField_toNat (w : Word) : (immField w).toNat = w.toNat / 65536 := by
  unfold immField
  rw [BitVec.extractLsb'_toNat, Nat.shiftRight_eq_div_pow]
  omega

theorem idxField_toNat (w : Word) : (idxField w).toNat = w.toNat / 256 % 128 := by
  unfold idxField
  rw [BitVec.extractLsb'_toNat, Nat.shiftRight_eq_div_pow]

theorem codeField_toNat (w : Word) : (codeField w).toNat = w.toNat / 256 % 16 := by
  unfold codeField
  rw [BitVec.extractLsb'_toNat, Nat.shiftRight_eq_div_pow]

/-- What a masked comparison says of a field the mask covers. -/
theorem field_of_masked {w mask pattern : Word} (h : w &&& mask = pattern) (start len : Nat)
    (hm : mask.extractLsb' start len = BitVec.allOnes len) :
    w.toNat / 2 ^ start % 2 ^ len = pattern.toNat / 2 ^ start % 2 ^ len := by
  have e : w.extractLsb' start len = pattern.extractLsb' start len := by
    rw [← h, BitVec.extractLsb'_and, hm, BitVec.and_allOnes]
  have e' := congrArg BitVec.toNat e
  rwa [BitVec.extractLsb'_toNat, BitVec.extractLsb'_toNat, Nat.shiftRight_eq_div_pow, Nat.shiftRight_eq_div_pow] at e'

/-- The decoder's cases: the one row a word matches, or none (R83, R84). -/
theorem decode_cases (w : Word) :
    (spells w .init = true ∧ decode w = .ok .init) ∨
    (spells w .ldst = true ∧ decode w = .ok (.ldst (immField w) (idxField w))) ∨
    (spells w .encs = true ∧ decode w = .ok (.encs (immField w))) ∨
    (spells w .decs = true ∧ decode w = .ok (.decs (codeField w))) ∨
    (spells w .encb = true ∧ decode w = .ok (.encb (contField w))) ∨
    (spells w .decb = true ∧ decode w = .ok (.decb (contField w))) ∨
    ((∀ m, spells w m = false) ∧ decode w = .error (illegalWord w)) := by
  unfold decode
  by_cases h1 : spells w .init <;> simp [h1]
  by_cases h2 : spells w .ldst <;> simp [h2]
  by_cases h3 : spells w .encs <;> simp [h3]
  by_cases h4 : spells w .decs <;> simp [h4]
  by_cases h5 : spells w .encb <;> simp [h5]
  by_cases h6 : spells w .decb <;> simp [h6]
  intro m
  cases m <;> simp_all

/-- "No two rows match the same word" (R83). -/
theorem spells_unique {w : Word} {m n : Mnemonic} (hm : spells w m = true) (hn : spells w n = true) : m = n :=
  Laws.Spelling.op_injective
    ((Laws.Spelling.opField_of_spells hm).symm.trans (Laws.Spelling.opField_of_spells hn))

end Sys2Proof
end

