-- ==== Sys2Proof/Laws/Step.lean ====
section
/-! SUPPORT. What a step can do: the inversions of `exec`, of a device turn, of a turn on an instance, and of the
step. -/
namespace Sys2Proof.Machine

/-! ### Commands -/

/-- A buffer command's next state: stuck, failed, or the loop's state completed. -/
theorem runPlan_next {plan : Except ErrCode Plan} {cont : Bool} {loop : Plan → State → State} {s t : State}
    (h : runPlan plan cont loop s = .next t) :
    t = s ∨ (∃ e, plan = .error e ∧ t = s.fail e) ∨
    ∃ p, plan = .ok p ∧ s.planRefusal p = none ∧
      t = (loop p (s.setAdp (s.startAdp cont))).complete (BitVec.ofNat 32 p.write.len) := by
  rcases runPlan_cases plan cont loop s with ⟨e, h1, h2⟩ | ⟨p, r, -, -, h2⟩ | ⟨p, -, -, -, h2⟩ | ⟨p, h1, h2, -, h3⟩
  · rw [h2] at h
    cases h
    exact .inr (.inl ⟨e, h1, rfl⟩)
  · rw [h2] at h
    cases h
  · rw [h2] at h
    cases h
    exact .inl rfl
  · rw [h3] at h
    cases h
    exact .inr (.inr ⟨p, h1, h2, rfl⟩)

/-- Everything a command's next state can be: unchanged (the stuck device), failed, or completed from a state that
differs only in the Adaptation State, the hidden state and memory. -/
theorem exec_next {i : Instr} {s t : State} (h : exec i s = .next t) :
    t = s ∨ (∃ e, t = s.fail e) ∨ ∃ u v, OnlyStreams s u ∧ t = u.complete v := by
  cases i with
  | init => cases h; exact .inr (.inr ⟨_, _, OnlyStreams.setAdp _ _, rfl⟩)
  | ldst p k =>
    simp only [exec, execLdst] at h
    split at h <;> cases h
    · exact .inr (.inl ⟨_, rfl⟩)
    · exact .inr (.inr ⟨_, _, OnlyStreams.setAdp _ _, rfl⟩)
  | encs x => cases h; exact .inr (.inr ⟨_, _, OnlyStreams.setAdp _ _, rfl⟩)
  | decs c => cases h; exact .inr (.inr ⟨_, _, OnlyStreams.setAdp _ _, rfl⟩)
  | encb cont =>
    rcases runPlan_next h with h | ⟨e, -, h⟩ | ⟨p, -, -, h⟩
    · exact .inl h
    · exact .inr (.inl ⟨e, h⟩)
    · exact .inr (.inr ⟨_, _, (OnlyStreams.setAdp _ _).trans (encbLoop_onlyStreams _ _ _ _), h⟩)
  | decb cont =>
    rcases runPlan_next h with h | ⟨e, -, h⟩ | ⟨p, -, -, h⟩
    · exact .inl h
    · exact .inr (.inl ⟨e, h⟩)
    · exact .inr (.inr ⟨_, _, (OnlyStreams.setAdp _ _).trans (decbLoop_onlyStreams _ _ _ _), h⟩)

/-- A device step: an ILLEGAL word fails, any other runs its command (R217). -/
theorem deviceTurn_next {s t : State} (h : deviceTurn s = .next t) :
    t = s ∨ t = s.fail .illegal ∨ ∃ i, s.dev.busy = true ∧ decode s.dev.hid.cmdl = .ok i ∧ exec i s = .next t := by
  unfold deviceTurn at h
  split at h
  · unfold deviceStep at h
    split at h
    · cases h
      exact .inr (.inl rfl)
    · exact .inr (.inr ⟨_, by assumption, by assumption, h⟩)
  · cases h
    exact .inl rfl

/-! ### Instances -/

@[simp] theorem State.swap_mem (s : State) (j : Nat) : (s.swap j).mem = s.mem := by unfold State.swap; split <;> rfl
@[simp] theorem State.swap_cfg (s : State) (j : Nat) : (s.swap j).cfg = s.cfg := by unfold State.swap; split <;> rfl
@[simp] theorem State.swap_agenda (s : State) (j : Nat) : (s.swap j).agenda = s.agenda := by
  unfold State.swap; split <;> rfl
@[simp] theorem State.swap_rdata (s : State) (j : Nat) : (s.swap j).rdata = s.rdata := by
    unfold State.swap; split <;> rfl
@[simp] theorem State.swap_draws (s : State) (j : Nat) : (s.swap j).draws = s.draws := by
    unfold State.swap; split <;> rfl

@[simp] theorem State.swap_others_length (s : State) (j : Nat) : (s.swap j).others.length = s.others.length := by
  unfold State.swap
  split
  · rfl
  · simp

/-- The exchange, for an instance that exists. -/
theorem State.swap_eq {s : State} {j : Nat} (h : j < s.others.length) :
    s.swap j = { s with dev := s.others[j], others := s.others.set j s.dev } := by
  unfold State.swap
  rw [List.getElem?_eq_getElem h]

/-- The exchange moves instances about and makes none. -/
theorem State.mem_swap_instances {s : State} {j : Nat} {d : Instance} (h : d ∈ (s.swap j).instances) :
    d ∈ s.instances := by
  unfold State.swap at h
  split at h
  · exact h
  · rename_i e he
    rcases List.mem_cons.1 h with rfl | h
    · exact List.mem_cons_of_mem _ (List.mem_of_getElem? he)
    · rcases List.mem_or_eq_of_mem_set h with h | rfl
      · exact List.mem_cons_of_mem _ h
      · exact List.mem_cons_self

/-- What a turn on instance `k` can do (R196): the step itself on the selected one, or the step between two
exchanges. -/
theorem onInstance_next {k : Nat} {f : State → Host.Outcome State Fault Refusal} {s t : State}
    (h : onInstance k f s = .next t) :
    (k = 0 ∧ f s = .next t) ∨ ∃ j u, k = j + 1 ∧ j < s.others.length ∧ f (s.swap j) = .next u ∧ t = u.swap j := by
  cases k with
  | zero => exact .inl ⟨rfl, h⟩
  | succ j =>
    simp only [onInstance] at h
    split at h
    · cases hf : f (s.swap j) with
      | next u => rw [hf] at h; cases h; exact .inr ⟨j, u, rfl, by assumption, hf, rfl⟩
      | fault r => rw [hf] at h; cases h
      | refused r => rw [hf] at h; cases h
    · cases h

/-- What a step can be: the selected device's turn, or the turn at the head of the agenda. -/
theorem step_next {s t : State} (h : step s = .next t) :
    (s.agenda = [] ∧ deviceTurn s = .next t) ∨
    ∃ x rest, s.agenda = x :: rest ∧ takeTurn x { s with agenda := rest } = .next t := by
  cases ha : s.agenda with
  | nil => exact .inl ⟨rfl, by simpa [step, nextTurn, ha] using h⟩
  | cons x rest => exact .inr ⟨x, rest, rfl, by simpa [step, nextTurn, ha] using h⟩

theorem step_nil {s : State} (h : s.agenda = []) : step s = deviceTurn s := by
  simp [step, nextTurn, h]

theorem step_cons {s : State} {x : Turn} {rest : List Turn} (h : s.agenda = x :: rest) :
    step s = takeTurn x { s with agenda := rest } := by
  simp [step, nextTurn, h]

/-! ### Host steps -/

/-- What a register write can do (R36, R39, R47, R218). -/
theorem windowWrite_next {offset : BitVec 8} {width : Nat} {v : Word} {s t : State}
    (h : windowWrite offset width v s = .next t) :
    t = { s with dev := s.dev.overflow } ∨ (s.dev.busy = false ∧ (s.issue v).issueRefusal = none ∧ t = s.issue v) ∨
    ∃ r, (s.dev.busy && Reg.guarded r) = false ∧ t = { s with dev := s.dev.setOperand v r } := by
  unfold windowWrite at h
  split at h
  · unfold State.writeReg at h
    split at h
    · cases h; exact .inl rfl
    · rename_i hb
      split at h
      · rename_i hr
        unfold State.hostIssue at h
        split at h
        · cases h
        · cases h
          refine .inr (.inl ⟨?_, by assumption, rfl⟩)
          simpa [hr, Reg.guarded] using hb
      · cases h
        exact .inr (.inr ⟨_, by simpa using hb, rfl⟩)
  · cases h

/-- What a register read can do (R35, R48): only the value read and the count of free values. -/
theorem windowRead_next {offset : BitVec 8} {width : Nat} {s t : State} (h : windowRead offset width s = .next t) :
    ∃ v n, t = { s with rdata := v, draws := n } := by
  unfold windowRead at h
  split at h
  · cases h
    unfold State.readReg
    split
    · exact ⟨_, _, rfl⟩
    · exact ⟨_, s.draws, rfl⟩
  · cases h

/-- What a register write at a bus address can do: as `windowWrite_next`. -/
theorem hostRegWrite_next {addr width : Nat} {v : Word} {s t : State} (h : hostRegWrite addr width v s = .next t) :
    t = { s with dev := s.dev.overflow } ∨ (s.dev.busy = false ∧ (s.issue v).issueRefusal = none ∧ t = s.issue v) ∨
    ∃ r, (s.dev.busy && Reg.guarded r) = false ∧ t = { s with dev := s.dev.setOperand v r } := by
  unfold hostRegWrite at h
  split at h
  · cases h
  · exact windowWrite_next h

/-- What a register read at a bus address can do: as `windowRead_next`. -/
theorem hostRegRead_next {addr width : Nat} {s t : State} (h : hostRegRead addr width s = .next t) :
    ∃ v n, t = { s with rdata := v, draws := n } := by
  unfold hostRegRead at h
  split at h
  · cases h
  · exact windowRead_next h

/-- What a register access can do: the access on the instance whose window holds the address. -/
theorem onWindow_next {addr : Nat} {f : State → Host.Outcome State Fault Refusal} {s t : State}
    (h : onWindow addr f s = .next t) : ∃ k, s.windowAt addr = some k ∧ onInstance k f s = .next t := by
  unfold onWindow at h
  split at h
  · cases h
  · exact ⟨_, by assumption, h⟩

/-- An offset of the selected instance's window (R35). -/
theorem Instance.offsetOf_base (d : Instance) (offset : BitVec 8) : d.offsetOf (d.base + offset.toNat) = some offset := by
  have := offset.isLt
  unfold Instance.offsetOf
  rw [if_pos (by simp; omega), Nat.add_sub_cancel_left, BitVec.ofNat_toNat, BitVec.setWidth_eq]

/-- Is a bus address in the instance's window (R35), as a proposition. -/
theorem Instance.offsetOf_isSome (d : Instance) (addr : Nat) : (d.offsetOf addr).isSome = true ↔ d.InWindow addr := by
  unfold Instance.offsetOf Instance.InWindow
  split <;> simp_all

/-- An address in the selected instance's window reaches that instance, whatever the other windows. -/
theorem State.windowAt_eq_zero {s : State} {addr : Nat} (h : s.dev.InWindow addr) : s.windowAt addr = some 0 := by
  have := (Instance.offsetOf_isSome _ _).2 h
  simp [State.windowAt, State.instances, List.findIdx?_cons, this]

/-- An address in the window of entry `j` of the others, and in none looked at before, reaches that entry. -/
theorem State.windowAt_eq_succ {s : State} {j addr : Nat} (h : s.InWindowOf j addr) : s.windowAt addr = some (j + 1) := by
  obtain ⟨⟨d, hd, hw⟩, hs, hi⟩ := h
  have hz : (s.dev.offsetOf addr).isSome = false := by rwa [← Bool.not_eq_true, Instance.offsetOf_isSome]
  obtain ⟨hj, rfl⟩ := List.getElem?_eq_some_iff.1 hd
  simp only [State.windowAt, State.instances, List.findIdx?_cons, hz, Bool.false_eq_true, if_false]
  rw [List.findIdx?_eq_some_iff_getElem.2 ⟨hj, (Instance.offsetOf_isSome _ _).2 hw, fun i hij => ?_⟩]
  · rfl
  · rw [Instance.offsetOf_isSome]
    exact hi i _ hij (List.getElem?_eq_getElem (Nat.lt_trans hij hj))

/-- An address in the selected instance's window reaches the selected instance. -/
theorem State.windowAt_base (s : State) (offset : BitVec 8) : s.windowAt (s.dev.base + offset.toNat) = some 0 := by
  simp [State.windowAt, State.instances, List.findIdx?_cons, Instance.offsetOf_base]

/-- A register read in the selected instance's window. -/
theorem hostTurn_regRead_base (s : State) (offset : BitVec 8) (width : Nat) :
    hostTurn (.regRead (s.dev.base + offset.toNat) width) s = windowRead offset width s := by
  simp [hostTurn, onWindow, State.windowAt_base, onInstance, hostRegRead, Instance.offsetOf_base]

/-- A register write in the selected instance's window. -/
theorem hostTurn_regWrite_base (s : State) (offset : BitVec 8) (width : Nat) (v : Word) :
    hostTurn (.regWrite (s.dev.base + offset.toNat) width v) s = windowWrite offset width v s := by
  simp [hostTurn, onWindow, State.windowAt_base, onInstance, hostRegWrite, Instance.offsetOf_base]

/-- What a memory read can do (R72): only the value read and the count of free values. -/
theorem hostMemRead_next {a : Nat} {s t : State} (h : hostMemRead a s = .next t) :
    ∃ v n, t = { s with rdata := v, draws := n } := by
  unfold hostMemRead at h
  repeat' split at h
  all_goals cases h
  · exact ⟨_, _, rfl⟩
  · exact ⟨_, s.draws, rfl⟩

/-- What a memory write can do (R72): write the byte, at an address that exists, outside every running range. -/
theorem hostMemWrite_next {a : Nat} {v : Byte} {s t : State} (h : hostMemWrite a v s = .next t) :
    a < 2 ^ s.cfg.addrW ∧ s.inRunningRange a = false ∧ t = s.writeByte a v := by
  unfold hostMemWrite at h
  repeat' split at h
  all_goals cases h
  rename_i hr ha _
  simp only [Params.admitsWrite, Bool.not_eq_true', Bool.not_eq_false, Bool.and_eq_true, decide_eq_true_eq] at ha
  exact ⟨ha.1, by simpa using hr, rfl⟩

/-- What reset does to memory (R210, R211). -/
theorem State.abandonWrites_cases (s : State) :
    (s.dev.running s.cfg = none ∧ s.abandonWrites = s) ∨
    ∃ p, s.dev.running s.cfg = some p ∧
      s.abandonWrites =
        { s with mem := s.mem.scramble p.write.base s.draws p.write.len, draws := s.draws + p.write.len } := by
  unfold State.abandonWrites
  cases s.dev.running s.cfg with
  | none => exact .inl ⟨rfl, rfl⟩
  | some p => exact .inr ⟨p, rfl, rfl⟩

end Sys2Proof.Machine
end

