-- ==== Sys2Proof/Tests/Slice0.lean ====
section
/-! SUPPORT. Tests: expected results from 95_test_vectors.md and the worked examples of the rules, one step each. -/
namespace Sys2Proof.Tests

open Sys2Proof.Machine

/-- `{PRED, INDEX}`, `RESULT` and `STATUS` of a next state. -/
def view : Host.Outcome State Fault Refusal → Option (Int × Nat × Nat × Nat)
  | .next s => some (s.dev.adp.pred.toInt, s.dev.adp.index.toNat, s.dev.result.toNat, s.dev.statusWord.toNat)
  | _ => none

/-- `n` bytes of memory at `a` of a next state. -/
def bytes (a n : Nat) : Host.Outcome State Fault Refusal → List Nat
  | .next s => (List.range n).map fun i => (s.mem.read (a + i)).toNat
  | _ => []

/-- The refusal of a step. -/
def refusal : Host.Outcome State Fault Refusal → Option Refusal
  | .refused r => some r
  | _ => none

/-- The reset state with `{PRED, INDEX}` set. -/
def start (pred : Int) (index : Nat) : State :=
  State.reset.setAdp ⟨BitVec.ofInt 16 pred, BitVec.ofNat 7 index⟩

/-- `s` with the operand registers of a buffer command, and bytes of memory at `src`. -/
def buffers (s : State) (src srclen dst dstlen nsamp : Nat) (data : List Nat) : State :=
  { s with
    dev := { s.dev with src := BitVec.ofNat 32 src, srclen := BitVec.ofNat 32 srclen, dst := BitVec.ofNat 32 dst
                        dstlen := BitVec.ofNat 32 dstlen, nsamp := BitVec.ofNat 32 nsamp }
    mem := (data.zipIdx).foldl (fun m x => Memory.write m (src + x.2) (BitVec.ofNat 8 x.1)) s.mem }

/-- The step that runs the command word `w`. -/
def run (s : State) (w : Nat) : Host.Outcome State Fault Refusal := step (s.withFetchWord 32 w)

/-! ### Well-formedness (30_encoding.md R87) -/

theorem test_wf_ldst_pred_high : (AsmLine.ldst 32768 0).wellFormed = false := by decide
theorem test_wf_ldst_pred_low : (AsmLine.ldst (-32769) 0).wellFormed = false := by decide
theorem test_wf_ldst_index_high : (AsmLine.ldst 0 128).wellFormed = false := by decide
theorem test_wf_ldst_index_low : (AsmLine.ldst 0 (-1)).wellFormed = false := by decide
theorem test_wf_encs_high : (AsmLine.encs 32768).wellFormed = false := by decide
theorem test_wf_encs_low : (AsmLine.encs (-32769)).wellFormed = false := by decide
theorem test_wf_decs_high : (AsmLine.decs 16).wellFormed = false := by decide
theorem test_wf_decs_low : (AsmLine.decs (-1)).wellFormed = false := by decide
theorem test_wf_ldst_bad_index_is_a_spelling : (AsmLine.ldst 0 89).wellFormed = true := by decide
theorem test_assemble_refuses : assemble (.encs 40000) = none := by decide

/-! ### Words (30_encoding.md R87; 95_test_vectors.md section 2) -/

theorem test_assemble_examples :
    assemble (.ldst (-19) 16) = some 0xFFED1002 ∧ assemble (.encs 1000) = some 0x03E80003 ∧
    assemble (.encs (-32768)) = some 0x80000003 ∧ assemble (.decs 0xF) = some 0x00000F04 := by decide
theorem test_decode_init : decode 0b00000000000000000000000000000001 = .ok .init := by decide
theorem test_decode_ldst : decode 0b11111111111011010001000000000010 = .ok (.ldst (BitVec.ofInt 16 (-19)) 16) := by
    decide
theorem test_decode_ldst_89 : decode 0x00005902 = .ok (.ldst 0 89) := by decide
theorem test_decode_encs : decode 0b00000011111010000000000000000011 = .ok (.encs 1000) := by decide
theorem test_decode_decs : decode 0b00000000000000000000011100000100 = .ok (.decs 7) := by decide
theorem test_decode_encb : decode 0b00000000000000000000000000000101 = .ok (.encb false) ∧
    decode 0b00000000000000000000000000010101 = .ok (.encb true) := by decide
theorem test_decode_decb : decode 0b00000000000000000000000000000110 = .ok (.decb false) ∧
    decode 0b00000000000000000000000000010110 = .ok (.decb true) := by decide
theorem test_decode_illegal_op :
    decode 0 = .error (.illegalOp 0) ∧ decode 7 = .error (.illegalOp 7) ∧ decode 0xF = .error (.illegalOp 15) := by
    decide
theorem test_decode_fixed_bit :
    decode 0x11 = .error (.fixedBitSet 1) ∧ decode 0x101 = .error (.fixedBitSet 1) ∧
    decode 0xFFED9002 = .error (.fixedBitSet 2) ∧ decode 0x7FFF0013 = .error (.fixedBitSet 3) ∧
    decode 0x00010004 = .error (.fixedBitSet 4) ∧ decode 0xF14 = .error (.fixedBitSet 4) ∧
    decode 0x25 = .error (.fixedBitSet 5) ∧ decode 0x80000006 = .error (.fixedBitSet 6) := by decide
theorem test_decode_table_word :
    decodeTableWord 32 0x00000F04 = some (.decs 15) ∧ decodeTableWord 32 0 = none := by decide

/-! ### INIT and LDST (95, T1-T6) -/

theorem test_init : view (run (start (-19) 16) 0x00000001) = some (0, 0, 0, 0) := by decide
theorem test_ldst : view (run State.reset 0xFFED1002) = some (-19, 16, 0, 0) := by decide
theorem test_ldst_bad_state : view (run (start (-42) 42) 0x00055902) = some (-42, 42, 0xFFFFFFFF, 0x60) := by decide
theorem test_illegal : view (run (start (-42) 42) 0x00000025) = some (-42, 42, 0xFFFFFFFF, 0x10) := by decide

/-! ### ENCS and DECS (95, Q14, Q22; 3.4) -/

theorem test_encs_largest_difference : view (run (start (-32768) 88) 0x7FFF0003) = some (28668, 88, 7, 0) := by decide
theorem test_encs_clamps : view (run (start (-32000) 88) 0x80000003) = some (-32768, 87, 8, 0) := by decide
theorem test_decs_sign_extends : view (run (start 11 8) 0x00000F04) = some (-19, 16, 0xFFFFFFED, 0) := by decide
theorem test_decs_clamps : view (run (start 32767 88) 0x00000804) = some (28672, 87, 28672, 0) := by decide

/-! ### ENCB and DECB (95, B1, B12, B13, B22) -/

theorem test_encb_odd_tail :
    bytes 0x200 4 (run (buffers State.reset 0x100 6 0x200 4 0 [0xE8, 0x03, 0xE8, 0x03, 0x0C, 0xFE]) 5)
      = [0x77, 0xF0, 0, 0] ∧
    view (run (buffers State.reset 0x100 6 0x200 4 0 [0xE8, 0x03, 0xE8, 0x03, 0x0C, 0xFE]) 5)
      = some (-22, 24, 2, 0) := by decide
/-- FRAMING comes before DST_SHORT; the last byte of memory is in range, and the one above it is not. -/
theorem test_encb_checks :
    view (run (buffers (start 5 5) 0x100 15 0x200 3 0 []) 5) = some (5, 5, 0xFFFFFFFF, 0x20) ∧
    view (run (buffers State.reset 0x100 2 0xFFFFFFFF 1 0 []) 5) = some (0, 0, 1, 0) ∧
    view (run (buffers State.reset 0xFFFFFFFF 2 0x200 1 0 []) 5) = some (0, 0, 0xFFFFFFFF, 0x50) := by decide
theorem test_decb_odd_tail :
    bytes 0x200 7 (run (buffers State.reset 0x100 2 0x200 6 3 [0x7F, 0x12]) 6)
      = [0x0B, 0x00, 0xED, 0xFF, 0xF9, 0xFF, 0] ∧
    view (run (buffers State.reset 0x100 2 0x200 6 3 [0x7F, 0x12]) 6) = some (-7, 15, 6, 0) := by decide
/-- SRC_SHORT comes before DST_SHORT; the products are exact, not cut to 32 bits. -/
theorem test_decb_checks :
    view (run (buffers State.reset 0x100 1 0x200 0xFFFFFFFF 0x80000000 []) 6) = some (0, 0, 0xFFFFFFFF, 0x40) ∧
    view (run (buffers State.reset 0x100 0x40000000 0x200 0xFFFFFFFF 0x80000000 []) 6)
      = some (0, 0, 0xFFFFFFFF, 0x30) := by decide

/-! ### The host's side (10_state.md R35-R48; 20_memory.md R60-R77; 70_reset_and_hazards.md R210-R218) -/

/-- `s` with one host step next. -/
def hostNext (s : State) (a : HostAction) : State := { s with agenda := [.host a] }

/-- The next state. -/
def stepped : Host.Outcome State Fault Refusal → Option State
  | .next s => some s
  | _ => none

/-- What a host read returned. -/
def readBack : Host.Outcome State Fault Refusal → Option Nat
  | .next s => some s.rdata.toNat
  | _ => none

/-- An idle state ready for ENCB of three samples from 0x100 to 0x200. -/
def ready : State := buffers State.reset 0x100 6 0x200 2 0 [0xE8, 0x03, 0xE8, 0x03, 0x0C, 0xFE]

/-- `ready` with ENCB issued. -/
def running : State := ready.issue 5

/-- R218: a write of `SRC` while `BUSY` is 1 changes nothing but `OVF`. -/
theorem test_busy_write_sets_ovf :
    stepped (step (hostNext running (.regWrite 0x14 4 7))) = some { running with dev := { running.dev with ovf := true } } := by
  decide
/-- R216: an issue clears `OVF` and `ERR`. -/
theorem test_issue_clears_report :
    view (step (hostNext ({ State.reset with dev := { State.reset.dev with ovf := true, err := .range } })
      (.regWrite 0 4 0x00000F04))) = some (0, 0, 0, 1) := by decide
/-- R37, R182: `STATUS` after BAD_STATE with `OVF` set. -/
theorem test_status_read :
    readBack (step (hostNext ({ State.reset with dev := { State.reset.dev with ovf := true, err := .badState } })
      (.regRead 4 4))) = some 0x62 := by decide
/-- R181: the numbers of the error codes, as `STATUS` shows them. -/
theorem test_error_numbers :
    [ErrCode.ok, .illegal, .framing, .dstShort, .srcShort, .range, .badState].map
      (fun e => readBack (step (hostNext { State.reset with dev := { State.reset.dev with err := e } } (.regRead 4 4))))
      = [some 0x00, some 0x10, some 0x20, some 0x30, some 0x40, some 0x50, some 0x60] := by decide
/-- R196: a register access in another instance's window, and that instance's reset, leave the selected one alone. -/
theorem test_other_instance :
    stepped (step { start 5 5 with
        others := [{ (start (-19) 16).dev with base := 0x100 }], agenda := [.host (.regWrite 0x114 4 7)] })
      = some { start 5 5 with others := [{ (start (-19) 16).dev with base := 0x100, src := 7 }] } ∧
    readBack (step { start 5 5 with
        others := [{ (start (-19) 16).dev with base := 0x100 }], agenda := [.host (.regRead 0x10C 4)] })
      = some 0xFFFFFFED ∧
    view (step { start 5 5 with
        others := [{ (start (-19) 16).dev with base := 0x100 }], agenda := [.host (.reset 1)] })
      = some (5, 5, 0, 0) := by decide
/-- R30: `PRED` reads sign-extended. -/
theorem test_pred_read : readBack (step (hostNext (start (-19) 16) (.regRead 0xC 4))) = some 0xFFFFFFED := by decide
/-- R60. -/
theorem test_reg_access :
    refusal (step (hostNext ready (.regRead 0x15 4))) = some .regAccess ∧
    refusal (step (hostNext ready (.regWrite 0x14 2 0))) = some .regAccess := by decide
/-- R188: ALIAS is refused at issue. -/
theorem test_alias_at_issue :
    refusal (step (hostNext (buffers State.reset 0x100 4 0x101 1 0 []) (.regWrite 0 4 5))) = some .aliased := by decide
/-- R72 point 3. -/
theorem test_buffer_race :
    refusal (step (hostNext running (.memWrite 0x105 0))) = some .bufferRace ∧
    refusal (step (hostNext running (.memWrite 0x201 0))) = some .bufferRace ∧
    refusal (step (hostNext running (.memWrite 0x202 0))) = none := by decide
/-- R72: the host may read the source of a running command. -/
theorem test_mem_read : readBack (step (hostNext running (.memRead 0x104))) = some 0x0C := by decide
/-- R39: with `ADDR_W` 16 the high bits of `SRC` read 0. -/
theorem test_addr_bits :
    readBack (step (hostNext { buffers State.reset 0xABCD1234 0 0 0 0 [] with cfg := { Params.default with addrW := 16 } }
      (.regRead 0x14 4))) = some 0x1234 := by decide
/-- `s` on a platform with one region that is not plain memory. -/
def withRegion (s : State) (k : RegionKind) (base len : Nat) : State :=
  { s with cfg := { Params.default with regions := [⟨k, ⟨base, len⟩⟩] } }

/-- R70: a device whose access is not admitted stays busy. -/
theorem test_stuck :
    stepped (step (withRegion running .noWrites 0x200 1)) = some (withRegion running .noWrites 0x200 1) ∧
    stepped (step (withRegion running .noReads 0x105 1)) = some (withRegion running .noReads 0x105 1) := by decide
/-- R70: a source in memory that admits reads and no writes, and a destination in memory that admits writes and no reads,
stop nothing. -/
theorem test_read_only_source :
    view (step (withRegion running .noWrites 0x100 6)) = some (-22, 24, 2, 0) ∧
    view (step (withRegion running .noReads 0x200 2)) = some (-22, 24, 2, 0) := by decide
/-- R186, R72: a host write into a stuck command's range is a race, not a write the platform does not admit. -/
theorem test_race_before_admission :
    refusal (step (hostNext (withRegion running .noWrites 0x200 2) (.memWrite 0x200 1))) = some .bufferRace := by decide
/-- R210. -/
theorem test_reset_input : view (step (hostNext (start 5 5) (.reset 0))) = some (0, 0, 0, 0) := by decide

/-! ### Witnesses: for each statement with hypotheses, concrete data that meets them -/

/-- A byte of a range. -/
theorem has {r : Range} {a : Nat} (h : r.base ≤ a ∧ a < r.base + r.len) : r.Has a := h

/-- Nothing stands in the way of two ranges, one below the other, on a platform of plain memory and one instance. -/
theorem clear_of {s : State} {r w : Range} (ho : s.others = []) (hg : s.cfg.regions = [])
    (h : r.base + r.len ≤ w.base ∨ w.base + w.len ≤ r.base) : s.Clear r w where
  apart a := by unfold Range.Has; omega
  no_race d hd := by rw [ho] at hd; cases hd
  plain g hg' := by rw [hg] at hg'; cases hg'

theorem witness_EncodeOfDecode : decode 0x80000003 = .ok (.encs 0x8000) := by decide

theorem witness_IllegalWordFails :
    (∀ w ∈ [0x00000000#32, 0x00000007#32, 0xFFFFFFFF#32],
      (w.extractLsb' 0 4).toNat = 0 ∨ 7 ≤ (w.extractLsb' 0 4).toNat) ∧
    (∃ (s : State) (rest : List Turn), s.agenda = .device 0 :: rest ∧ s.dev.busy = true ∧
      s.dev.hid.cmdl &&& 0xFFFFFFFF ≠ 0x00000001 ∧ s.dev.hid.cmdl &&& 0x000080FF ≠ 0x00000002 ∧
      s.dev.hid.cmdl &&& 0x0000FFFF ≠ 0x00000003 ∧ s.dev.hid.cmdl &&& 0xFFFFF0FF ≠ 0x00000004 ∧
      s.dev.hid.cmdl &&& 0xFFFFFFEF ≠ 0x00000005 ∧ s.dev.hid.cmdl &&& 0xFFFFFFEF ≠ 0x00000006) ∧
    ∃ (s : State) (w : Word) (rest : List Turn), s.agenda = .device 0 :: rest ∧ s.dev.busy = true ∧ s.dev.hid.cmdl = w ∧
      w &&& 0x000080FF = 0x00000002 ∧ 88 < (w.extractLsb' 8 7).toNat :=
  ⟨by simp, ⟨{ State.reset.issue 0x25 with agenda := [.device 0] }, [], by decide⟩,
    { State.reset.issue 0x00005902 with agenda := [.device 0] }, 0x00005902, [], by decide⟩

theorem witness_AssemblerWords :
    (∃ p k : Int, -32768 ≤ p ∧ p ≤ 32767 ∧ 0 ≤ k ∧ k ≤ 127) ∧ (∃ x : Int, -32768 ≤ x ∧ x ≤ 32767) ∧
    (∃ c : Int, 0 ≤ c ∧ c ≤ 15) ∧ (∃ p k : Int, p < -32768 ∨ 32767 < p ∨ k < 0 ∨ 127 < k) ∧
    (∃ x : Int, x < -32768 ∨ 32767 < x) ∧ ∃ c : Int, c < 0 ∨ 15 < c :=
  ⟨⟨-32768, 127, by decide⟩, ⟨32767, by decide⟩, ⟨15, by decide⟩, ⟨0, 128, by decide⟩, ⟨32768, by decide⟩, 16, by decide⟩

theorem witness_StepRunsTheLatchedCommand :
    (∃ (s : State) (i : Instr), s.agenda = [] ∧ s.dev.busy = true ∧ decode s.dev.hid.cmdl = .ok i) ∧
    ∃ (s : State) (i : Instr) (rest : List Turn), s.agenda = .device 0 :: rest ∧ s.dev.busy = true ∧
      decode s.dev.hid.cmdl = .ok i :=
  ⟨⟨running, .encb false, by decide⟩, { running with agenda := [.device 0] }, .encb false, [], by decide⟩

theorem witness_IdleDeviceKeepsItsState :
    (∃ s : State, s.agenda = [] ∧ s.dev.busy = false) ∧
    ∃ (s : State) (rest : List Turn), s.agenda = .device 0 :: rest ∧ s.dev.busy = false :=
  ⟨⟨ready, by decide⟩, { ready with agenda := [.device 0] }, [], by decide⟩

/-- Words of `OP` 0x1 to 0x4, each once as its row has it and once with a fixed bit set. -/
theorem witness_words_of_an_op :
    (∀ w ∈ [0x00000001#32, 0x80000001#32], w.extractLsb' 0 4 = 0x1#4) ∧
    (∀ w ∈ [0xFFFF7F02#32, 0x00008002#32, 0x00000012#32], w.extractLsb' 0 4 = 0x2#4) ∧
    (∀ w ∈ [0xFFFF0003#32, 0x00008003#32], w.extractLsb' 0 4 = 0x3#4) ∧
    ∀ w ∈ [0x00000F04#32, 0x00001004#32, 0x00000084#32], w.extractLsb' 0 4 = 0x4#4 := by simp

theorem witness_LdstLoadsOrFails : (∃ k : StepIndex, k.toNat ≤ 88) ∧ ∃ k : StepIndex, 88 < k.toNat :=
  ⟨⟨88, by decide⟩, 89, by decide⟩

theorem witness_EncsEncodesOneSample :
    ∃ (s : State) (x : Sample) (code : Code),
      code = quantize x.toInt s.dev.adp.pred.toInt (s.cfg.step s.dev.adp.index) :=
  ⟨start (-32768) 88, 0x7FFF, 7, by decide⟩

/-- Three samples; and no sample, with both buffers at the top of memory and of length 0. -/
theorem witness_EncbEncodesTheBuffer :
    (∃ (s : State) (cont : Bool) (src r dst n need : Nat) (a : Adaptation) (xs : List Sample),
      s.mem.wf ∧ src = s.dev.hid.srcl.toNat ∧ r = s.dev.hid.srclenl.toNat ∧ dst = s.dev.hid.dstl.toNat ∧
      r = 2 * n ∧ need = (n + 1) / 2 ∧ need ≤ s.dev.hid.dstlenl.toNat ∧
      Range.Below ⟨src, r⟩ s.cfg.addrW ∧ Range.Below ⟨dst, need⟩ s.cfg.addrW ∧ s.Clear ⟨src, r⟩ ⟨dst, need⟩ ∧
      a = (if cont then s.dev.adp else ⟨0, 0⟩) ∧ xs = s.mem.samplesAt src n) ∧
    ∃ s : State, s.mem.wf ∧ s.dev.hid.srclenl.toNat = 0 ∧ Range.Below ⟨s.dev.hid.srcl.toNat, 0⟩ s.cfg.addrW ∧
      Range.Below ⟨s.dev.hid.dstl.toNat, 0⟩ s.cfg.addrW ∧
      s.Clear ⟨s.dev.hid.srcl.toNat, 0⟩ ⟨s.dev.hid.dstl.toNat, 0⟩ :=
  ⟨⟨running, false, 0x100, 6, 0x200, 3, 2, ⟨0, 0⟩, [1000, 1000, BitVec.ofInt 16 (-500)], by decide, by decide, by decide,
      by decide, by decide, by decide, by decide, .inr (by decide), .inr (by decide),
      clear_of rfl rfl (.inl (by decide)), by decide, by decide⟩,
    (buffers State.reset 0xFFFFFFFF 0 0xFFFFFFFF 0 0 []).issue 0x15, by decide, by decide, .inl rfl, .inl rfl,
    clear_of rfl rfl (.inl (by decide))⟩

/-- A state with DECB.C of three codes issued. -/
def runningDecb : State := (buffers State.reset 0x100 2 0x200 6 3 [0x7F, 0x12]).issue 0x16

theorem witness_DecbDecodesTheBuffer :
    ∃ (s : State) (cont : Bool) (src dst n : Nat) (a : Adaptation) (codes : List Code),
      s.mem.wf ∧ src = s.dev.hid.srcl.toNat ∧ n = s.dev.hid.nsampl.toNat ∧ dst = s.dev.hid.dstl.toNat ∧
      (n + 1) / 2 ≤ s.dev.hid.srclenl.toNat ∧ 2 * n ≤ s.dev.hid.dstlenl.toNat ∧
      Range.Below ⟨src, (n + 1) / 2⟩ s.cfg.addrW ∧ Range.Below ⟨dst, 2 * n⟩ s.cfg.addrW ∧
      s.Clear ⟨src, (n + 1) / 2⟩ ⟨dst, 2 * n⟩ ∧
      a = (if cont then s.dev.adp else ⟨0, 0⟩) ∧ codes = s.mem.codesAt src n :=
  ⟨runningDecb, true, 0x100, 0x200, 3, ⟨0, 0⟩, [7, 15, 1], by decide, by decide, by decide, by decide, by decide,
    by decide, .inr (by decide), .inr (by decide), clear_of rfl rfl (.inl (by decide)), by decide, by decide⟩

/-- B-type boundary cases: an odd length; one byte too few; a source that ends one byte above the top. -/
theorem witness_EncbChecksInOrder :
    (∃ s : State, s.dev.hid.srclenl.toNat % 2 = 1) ∧
    (∃ s : State, s.dev.hid.srclenl.toNat % 2 = 0 ∧
      s.dev.hid.dstlenl.toNat < (s.dev.hid.srclenl.toNat / 2 + 1) / 2) ∧
    ∃ s : State, s.dev.hid.srclenl.toNat % 2 = 0 ∧
      (s.dev.hid.srclenl.toNat / 2 + 1) / 2 ≤ s.dev.hid.dstlenl.toNat ∧
      ¬(Range.Below ⟨s.dev.hid.srcl.toNat, s.dev.hid.srclenl.toNat⟩ s.cfg.addrW ∧
        Range.Below ⟨s.dev.hid.dstl.toNat, (s.dev.hid.srclenl.toNat / 2 + 1) / 2⟩ s.cfg.addrW) :=
  ⟨⟨(buffers State.reset 0x100 15 0x200 3 0 []).issue 5, by decide⟩,
    ⟨(buffers State.reset 0x100 6 0x200 1 0 []).issue 5, by decide⟩,
    (buffers State.reset 0xFFFFFFFF 2 0x200 1 0 []).issue 5, by decide, by decide,
    fun h => h.1.elim (by decide) (by decide)⟩

theorem witness_DecbChecksInOrder :
    (∃ s : State, s.dev.hid.srclenl.toNat < (s.dev.hid.nsampl.toNat + 1) / 2) ∧
    (∃ s : State, (s.dev.hid.nsampl.toNat + 1) / 2 ≤ s.dev.hid.srclenl.toNat ∧
      s.dev.hid.dstlenl.toNat < 2 * s.dev.hid.nsampl.toNat) ∧
    ∃ s : State, (s.dev.hid.nsampl.toNat + 1) / 2 ≤ s.dev.hid.srclenl.toNat ∧
      2 * s.dev.hid.nsampl.toNat ≤ s.dev.hid.dstlenl.toNat ∧
      ¬(Range.Below ⟨s.dev.hid.srcl.toNat, (s.dev.hid.nsampl.toNat + 1) / 2⟩ s.cfg.addrW ∧
        Range.Below ⟨s.dev.hid.dstl.toNat, 2 * s.dev.hid.nsampl.toNat⟩ s.cfg.addrW) :=
  ⟨⟨(buffers State.reset 0x100 1 0x200 6 3 []).issue 6, by decide⟩,
    ⟨(buffers State.reset 0x100 2 0x200 5 3 []).issue 6, by decide⟩,
    (buffers State.reset 0x100 1 0xFFFFFFFF 2 1 []).issue 6, by decide, by decide,
    fun h => h.2.elim (by decide) (by decide)⟩

theorem witness_FailedCommandChangesNothing :
    ∃ (i : Instr) (s t : State), s.dev.err = .ok ∧ exec i s = .next t ∧ t.dev.err ≠ .ok :=
  ⟨.ldst 5 89, State.reset.issue 0x00055902, _, rfl, rfl, by decide⟩

/-- ENCB with its one byte of output on the last byte of its source; DECB with its input on its first byte of output. -/
theorem witness_OverlappingRangesAreRefused :
    (∃ (s : State) (p : Plan) (a : Nat), p.read.Has a ∧ p.write.Has a ∧ encbPlan s.cfg s.dev.hid = .ok p) ∧
    (∃ (s : State) (p : Plan) (a : Nat), p.read.Has a ∧ p.write.Has a ∧ decbPlan s.cfg s.dev.hid = .ok p) ∧
    (∃ (s : State) (w : Word) (rest : List Turn) (cont : Bool) (p : Plan) (a : Nat),
      s.agenda = .host (.regWrite s.dev.base 4 w) :: rest ∧ s.dev.busy = false ∧ p.read.Has a ∧ p.write.Has a ∧
      decode w = .ok (.encb cont) ∧ encbPlan s.cfg (s.dev.latch s.cfg w) = .ok p) ∧
    ∃ (s : State) (w : Word) (rest : List Turn) (cont : Bool) (p : Plan) (a : Nat),
      s.agenda = .host (.regWrite s.dev.base 4 w) :: rest ∧ s.dev.busy = false ∧ p.read.Has a ∧ p.write.Has a ∧
      decode w = .ok (.decb cont) ∧ decbPlan s.cfg (s.dev.latch s.cfg w) = .ok p :=
  ⟨⟨(buffers State.reset 0x100 4 0x103 1 0 []).issue 5, ⟨2, ⟨0x100, 4⟩, ⟨0x103, 1⟩⟩, 0x103, has (by decide), has (by decide),
      by decide⟩,
    ⟨(buffers State.reset 0x100 1 0x100 2 1 []).issue 6, ⟨1, ⟨0x100, 1⟩, ⟨0x100, 2⟩⟩, 0x100, has (by decide), has (by decide),
      by decide⟩,
    ⟨hostNext (buffers State.reset 0x100 4 0x103 1 0 []) (.regWrite 0 4 5), 5, [], false, ⟨2, ⟨0x100, 4⟩, ⟨0x103, 1⟩⟩,
      0x103, by decide, by decide, has (by decide), has (by decide), by decide, by decide⟩,
    hostNext (buffers State.reset 0x100 1 0x100 2 1 []) (.regWrite 0 4 6), 6, [], false, ⟨1, ⟨0x100, 1⟩, ⟨0x100, 2⟩⟩,
    0x100, by decide, by decide, has (by decide), has (by decide), by decide, by decide⟩

theorem witness_UnadmittedAccessLeavesTheDeviceStuck :
    (∃ (s : State) (p : Plan) (g : Region) (a : Nat), s.planRefusal p = none ∧ g ∈ s.cfg.regions ∧ g.range.Has a ∧
      (g.kind = .noReads ∧ p.read.Has a) ∧ encbPlan s.cfg s.dev.hid = .ok p) ∧
    (∃ (s : State) (p : Plan) (g : Region) (a : Nat), s.planRefusal p = none ∧ g ∈ s.cfg.regions ∧ g.range.Has a ∧
      (g.kind = .noWrites ∧ p.write.Has a) ∧ encbPlan s.cfg s.dev.hid = .ok p) ∧
    (∃ (s : State) (p : Plan) (g : Region) (a : Nat), s.planRefusal p = none ∧ g ∈ s.cfg.regions ∧ g.range.Has a ∧
      (g.kind = .noReads ∧ p.read.Has a) ∧ decbPlan s.cfg s.dev.hid = .ok p) ∧
    ∃ (s : State) (p : Plan) (g : Region) (a : Nat), s.planRefusal p = none ∧ g ∈ s.cfg.regions ∧ g.range.Has a ∧
      (g.kind = .noWrites ∧ p.write.Has a) ∧ decbPlan s.cfg s.dev.hid = .ok p :=
  ⟨⟨withRegion running .noReads 0x105 1, ⟨3, ⟨0x100, 6⟩, ⟨0x200, 2⟩⟩, _, 0x105, by decide, List.mem_cons_self,
      has (by decide), ⟨rfl, has (by decide)⟩, by decide⟩,
    ⟨withRegion running .noWrites 0x201 1, ⟨3, ⟨0x100, 6⟩, ⟨0x200, 2⟩⟩, _, 0x201, by decide, List.mem_cons_self,
      has (by decide), ⟨rfl, has (by decide)⟩, by decide⟩,
    ⟨withRegion runningDecb .noReads 0x101 1, ⟨3, ⟨0x100, 2⟩, ⟨0x200, 6⟩⟩, _, 0x101, by decide, List.mem_cons_self,
      has (by decide), ⟨rfl, has (by decide)⟩, by decide⟩,
    withRegion runningDecb .noWrites 0x200 1, ⟨3, ⟨0x100, 2⟩, ⟨0x200, 6⟩⟩, _, 0x200, by decide, List.mem_cons_self,
    has (by decide), ⟨rfl, has (by decide)⟩, by decide⟩

theorem witness_CommandFrame :
    (∃ s t : State, exec .init s = .next t) ∧ (∃ s t : State, exec (.encb false) s = .next t) ∧
    ∃ s t : State, exec (.decb true) s = .next t :=
  ⟨⟨ready, _, rfl⟩, ⟨running, _, rfl⟩, runningDecb, _, rfl⟩

theorem witness_QuantizeBits :
    ∃ (s p : Int) (step d d1 d2 : Nat), d = (s - p).natAbs ∧ d1 = (if step ≤ d then d - step else d) ∧
      d2 = (if step / 2 ≤ d1 then d1 - step / 2 else d1) :=
  ⟨-7, 0, 7, 7, 0, 0, by decide⟩

/-- Each boundary difference of the table at step 7 occurs (R103). -/
theorem witness_QuantizeMagnitudes :
    ∀ d ∈ [0, 1, 2, 3, 4, 6, 7, 8, 9, 10, 11], ∃ s p : Int, ∃ m : Nat,
      d = (s - p).natAbs ∧ m = (quantize s p 7).toNat % 8 :=
  fun d _ => ⟨d, 0, _, by simp, rfl⟩

theorem witness_AdaptRule :
    ∃ (c : Params) (a : Adaptation) (code : Code) (step : Nat) (k v p : Int),
      c.stepTable[a.index.toNat]? = some step ∧ c.indexTable[code.toNat]? = some k ∧
      v = reconstruct step (code.extractLsb' 0 3) ∧
      p = (if code.getLsbD 3 then a.pred.toInt - v else a.pred.toInt + v) :=
  ⟨Params.default, ⟨32767, 88⟩, 7, 32767, 8, 61436, 94203, by decide⟩

theorem witness_IntermediateRanges :
    ∃ (k : StepIndex) (code : Code) (v : Nat),
      k.toNat ≤ 88 ∧ v = reconstruct (Params.default.step k) (code.extractLsb' 0 3) :=
  ⟨88, 7, 61436, by decide⟩

theorem witness_PackThenUnpack :
    (∃ (codes : List Code) (j : Nat) (x y : Code), codes[2 * j]? = some x ∧ codes[2 * j + 1]? = some y) ∧
    ∃ (codes : List Code) (x : Code), codes.length % 2 = 1 ∧ codes[codes.length - 1]? = some x :=
  ⟨⟨[7, 7, 15, 1], 1, 15, 1, by decide⟩, [7, 7, 15], 15, by decide⟩

theorem witness_StreamChunkingLaw : ∃ xs : List Sample, xs.length % 2 = 0 := ⟨[1000, 1000], by decide⟩

/-- `running`'s three samples as a chunk of two. -/
def encbChunk : State := (buffers running 0x100 4 0x200 1 0 []).issue 5

/-- The state after the chunk of two. -/
def encbChunked : State := (stepped (exec (.encb false) encbChunk)).getD encbChunk

/-- `runningDecb`'s three codes as a chunk of two. -/
def decbChunk : State := (buffers runningDecb 0x100 1 0x200 4 2 []).issue 0x16

/-- The state after the chunk of two. -/
def decbChunked : State := (stepped (exec (.decb true) decbChunk)).getD decbChunk

/-- Chunks of two samples and one, for ENCB and for DECB. -/
theorem witness_ChunkingLaw :
    (∃ (s s₁ t₁ s₂ : State) (cont : Bool) (src dst n₁ n₂ : Nat),
      n₁ % 2 = 0 ∧ s.mem.wf ∧ s.EncbOperands src (n₁ + n₂) dst ∧
      Range.Below ⟨src, 2 * (n₁ + n₂)⟩ s.cfg.addrW ∧ Range.Below ⟨dst, (n₁ + n₂ + 1) / 2⟩ s.cfg.addrW ∧
      s.Clear ⟨src, 2 * (n₁ + n₂)⟩ ⟨dst, (n₁ + n₂ + 1) / 2⟩ ∧
      s.SamePlatform s₁ ∧ (cont = true → s₁.dev.adp = s.dev.adp) ∧ s₁.EncbOperands src n₁ dst ∧
      exec (.encb cont) s₁ = .next t₁ ∧ t₁.SamePlatform s₂ ∧ s₂.dev.adp = t₁.dev.adp ∧
      s₂.EncbOperands (src + 2 * n₁) n₂ (dst + n₁ / 2)) ∧
    ∃ (s s₁ t₁ s₂ : State) (cont : Bool) (src dst n₁ n₂ : Nat),
      n₁ % 2 = 0 ∧ s.mem.wf ∧ s.DecbOperands src (n₁ + n₂) dst ∧
      Range.Below ⟨src, (n₁ + n₂ + 1) / 2⟩ s.cfg.addrW ∧ Range.Below ⟨dst, 2 * (n₁ + n₂)⟩ s.cfg.addrW ∧
      s.Clear ⟨src, (n₁ + n₂ + 1) / 2⟩ ⟨dst, 2 * (n₁ + n₂)⟩ ∧
      s.SamePlatform s₁ ∧ (cont = true → s₁.dev.adp = s.dev.adp) ∧ s₁.DecbOperands src n₁ dst ∧
      exec (.decb cont) s₁ = .next t₁ ∧ t₁.SamePlatform s₂ ∧ s₂.dev.adp = t₁.dev.adp ∧
      s₂.DecbOperands (src + n₁ / 2) n₂ (dst + 2 * n₁) :=
  ⟨⟨running, encbChunk, encbChunked, (buffers encbChunked 0x104 2 0x201 1 0 []).issue 0x15, false, 0x100, 0x200, 2, 1,
      by decide, by decide, ⟨by decide, by decide, by decide, by decide⟩, .inr (by decide), .inr (by decide),
      clear_of rfl rfl (.inl (by decide)), ⟨rfl, rfl, rfl⟩, nofun, ⟨by decide, by decide, by decide, by decide⟩, rfl,
      ⟨rfl, rfl, rfl⟩, rfl, by decide, by decide, by decide, by decide⟩,
    runningDecb, decbChunk, decbChunked, (buffers decbChunked 0x101 1 0x204 2 1 []).issue 0x16, true, 0x100, 0x200, 2, 1,
    by decide, by decide, ⟨by decide, by decide, by decide, by decide, by decide⟩, .inr (by decide), .inr (by decide),
    clear_of rfl rfl (.inl (by decide)), ⟨rfl, rfl, rfl⟩, fun _ => rfl,
    ⟨by decide, by decide, by decide, by decide, by decide⟩, rfl, ⟨rfl, rfl, rfl⟩, rfl, by decide, by decide, by decide,
    by decide, by decide⟩

/-- The state after `running`'s ENCB. -/
def encoded : State := ((stepped (exec (.encb false) running)).getD running)

/-- DECB of its output into 0x300 issued. -/
def decoding : State := (buffers encoded 0x200 2 0x300 6 3 []).issue 6

theorem witness_DecbOfEncbTracks :
    ∃ (s t u : State) (cont : Bool) (src dst dst2 n : Nat),
      s.mem.wf ∧ src = s.dev.hid.srcl.toNat ∧ 2 * n = s.dev.hid.srclenl.toNat ∧ dst = s.dev.hid.dstl.toNat ∧
      (n + 1) / 2 ≤ s.dev.hid.dstlenl.toNat ∧
      Range.Below ⟨src, 2 * n⟩ s.cfg.addrW ∧ Range.Below ⟨dst, (n + 1) / 2⟩ s.cfg.addrW ∧
      s.Clear ⟨src, 2 * n⟩ ⟨dst, (n + 1) / 2⟩ ∧ exec (.encb cont) s = .next t ∧
      u.mem = t.mem ∧ u.cfg = t.cfg ∧ (cont = true → u.dev.adp = s.dev.adp) ∧
      dst = u.dev.hid.srcl.toNat ∧ n = u.dev.hid.nsampl.toNat ∧ dst2 = u.dev.hid.dstl.toNat ∧
      (n + 1) / 2 ≤ u.dev.hid.srclenl.toNat ∧ 2 * n ≤ u.dev.hid.dstlenl.toNat ∧
      Range.Below ⟨dst2, 2 * n⟩ u.cfg.addrW ∧ u.Clear ⟨dst, (n + 1) / 2⟩ ⟨dst2, 2 * n⟩ :=
  ⟨running, encoded, decoding, false, 0x100, 0x200, 0x300, 3, by decide, by decide, by decide, by decide, by decide,
    .inr (by decide), .inr (by decide), clear_of rfl rfl (.inl (by decide)), rfl, rfl, rfl, nofun, by decide, by decide,
    by decide, by decide, by decide, .inr (by decide), clear_of rfl rfl (.inl (by decide))⟩

theorem witness_ResetInput :
    (∃ (s : State) (rest : List Turn), s.agenda = .host (.reset 0) :: rest ∧ s.dev.busy = false) ∧
    ∃ (s : State) (rest : List Turn) (a : Nat), s.agenda = .host (.reset 0) :: rest ∧ s.dev.busy = true ∧
      ∀ p, s.dev.running s.cfg = some p → ¬p.write.Has a :=
  ⟨⟨hostNext ready (.reset 0), [], by decide⟩, hostNext running (.reset 0), [], 0x202, by decide, by decide, by
    intro p hp
    have : (hostNext running (.reset 0)).dev.running (hostNext running (.reset 0)).cfg
        = some ⟨3, ⟨0x100, 6⟩, ⟨0x200, 2⟩⟩ := by decide
    cases hp.symm.trans this
    unfold Range.Has
    decide⟩

theorem witness_IssueLatchesTheCommand :
    ∃ (s : State) (w : Word) (rest : List Turn), s.agenda = .host (.regWrite s.dev.base 4 w) :: rest ∧
      s.dev.busy = false ∧ ∀ p, commandPlan s.cfg (s.dev.latch s.cfg w) = some p → s.planRefusal p = none :=
  ⟨hostNext ready (.regWrite 0 4 5), 5, [], by decide, by decide, by
    intro p hp
    have : commandPlan (hostNext ready (.regWrite 0 4 5)).cfg
        ((hostNext ready (.regWrite 0 4 5)).dev.latch (hostNext ready (.regWrite 0 4 5)).cfg 5)
        = some ⟨3, ⟨0x100, 6⟩, ⟨0x200, 2⟩⟩ := by decide
    cases hp.symm.trans this
    decide⟩

theorem witness_WritesWhileBusyAreIgnored :
    ∀ offset ∈ [0x00#8, 0x04#8, 0x10#8, 0x14#8, 0x24#8, 0x28#8, 0xFC#8],
      (hostNext running (.regWrite offset.toNat 4 1)).agenda =
        .host (.regWrite ((hostNext running (.regWrite offset.toNat 4 1)).dev.base + offset.toNat) 4 1) :: [] ∧
      (hostNext running (.regWrite offset.toNat 4 1)).dev.busy = true ∧ offset.toNat % 4 = 0 := by decide

theorem witness_ReadOnlyAndReservedOffsets :
    ∀ offset ∈ [0x00#8, 0x04#8, 0x10#8, 0x28#8, 0xFC#8],
      offset.toNat % 4 = 0 ∧
      (hostNext ready (.regWrite offset.toNat 4 1)).agenda =
        .host (.regWrite ((hostNext ready (.regWrite offset.toNat 4 1)).dev.base + offset.toNat) 4 1) :: [] ∧
      (hostNext ready (.regRead offset.toNat 4)).agenda =
        .host (.regRead ((hostNext ready (.regRead offset.toNat 4)).dev.base + offset.toNat) 4) :: [] := by decide

theorem witness_OperandsReadBack :
    ∀ offset ∈ [0x14#8, 0x18#8, 0x1C#8, 0x20#8, 0x24#8],
      ∃ s : State, s.agenda =
        .host (.regWrite (s.dev.base + offset.toNat) 4 0xFFFFFFFF) ::
          .host (.regRead (s.dev.base + offset.toNat) 4) :: [] ∧ s.dev.busy = false :=
  fun offset _ => ⟨{ ready with agenda :=
    [.host (.regWrite (ready.dev.base + offset.toNat) 4 0xFFFFFFFF), .host (.regRead (ready.dev.base + offset.toNat) 4)] },
    rfl, rfl⟩

/-- With each error in turn. -/
theorem witness_StatusReads :
    ∀ e : ErrCode, ∃ (s : State) (rest : List Turn), s.agenda = .host (.regRead (s.dev.base + 0x04) 4) :: rest ∧
      s.dev.err = e :=
  fun e => ⟨{ hostNext ready (.regRead 4 4) with dev := { ready.dev with err := e } }, [], rfl, rfl⟩

/-- Every readable offset, on an idle device and on a busy one. -/
theorem witness_RegisterReads :
    ∀ offset ∈ [0x08#8, 0x0C#8, 0x10#8, 0x14#8, 0x18#8, 0x1C#8, 0x20#8, 0x24#8], ∀ b : Bool,
      ∃ (s : State) (rest : List Turn), s.agenda = .host (.regRead (s.dev.base + offset.toNat) 4) :: rest ∧
        s.dev.busy = b :=
  fun offset _ b => ⟨{ ready with agenda := [.host (.regRead (ready.dev.base + offset.toNat) 4)]
                                  dev := { ready.dev with busy := b } }, [], rfl, rfl⟩

theorem witness_RegisterAccessRefused :
    ∃ (s : State) (offset : BitVec 8) (width : Nat) (rest : List Turn), (width ≠ 4 ∨ offset.toNat % 4 ≠ 0) ∧
      s.agenda = .host (.regRead (s.dev.base + offset.toNat) width) :: rest :=
  ⟨hostNext ready (.regRead 0xFD 4), 0xFD, 4, [], by decide, by decide⟩

theorem witness_HostNeverWritesTheAdaptationState :
    ∃ (s t : State) (h : HostAction) (rest : List Turn), s.agenda = .host h :: rest ∧ (∀ k, h ≠ .reset k) ∧
      step s = .next t :=
  ⟨hostNext (start (-19) 16) (.regWrite 0x0C 4 7), _, .regWrite 0x0C 4 7, [], rfl, nofun, rfl⟩

/-- What `running` reads and writes. -/
theorem running_plan : running.dev.running running.cfg = some ⟨3, ⟨0x100, 6⟩, ⟨0x200, 2⟩⟩ := by decide

theorem witness_HostWriteIntoRunningBufferRefused :
    ∀ a ∈ [0x100, 0x105, 0x200, 0x201], ∃ (s : State) (v : Byte) (rest : List Turn) (d : Instance) (p : Plan),
      s.agenda = .host (.memWrite a v) :: rest ∧ d ∈ s.instances ∧ d.running s.cfg = some p ∧
      (p.read.Has a ∨ p.write.Has a) := by
  intro a ha
  refine ⟨hostNext running (.memWrite a 1), 1, [], running.dev, _, rfl, List.mem_cons_self, running_plan, ?_⟩
  revert a
  unfold Range.Has
  decide

/-- A byte of the source of a running command, one beside its destination, and the bytes of its destination. -/
theorem witness_HostMemoryReads :
    (∀ a ∈ [0x100, 0x105, 0x1FF, 0x202], ∃ (s : State) (rest : List Turn), s.agenda = .host (.memRead a) :: rest ∧
      a < 2 ^ s.cfg.addrW ∧ (∀ g ∈ s.cfg.regions, g.range.Has a → g.kind = .noWrites) ∧
      ∀ d ∈ s.instances, ∀ p, d.running s.cfg = some p → ¬p.write.Has a) ∧
    ∀ a ∈ [0x200, 0x201], ∃ (s : State) (rest : List Turn) (d : Instance) (p : Plan),
      s.agenda = .host (.memRead a) :: rest ∧ d ∈ s.instances ∧ d.running s.cfg = some p ∧ p.write.Has a := by
  constructor
  · intro a ha
    refine ⟨hostNext running (.memRead a), [], rfl, ?_, nofun, fun d hd p hp => ?_⟩
    · revert a; decide
    · rw [List.mem_singleton.1 hd] at hp
      cases hp.symm.trans running_plan
      clear hd hp
      revert a; unfold Range.Has; decide
  · intro a ha
    refine ⟨hostNext running (.memRead a), [], running.dev, _, rfl, List.mem_cons_self, running_plan, ?_⟩
    revert a
    unfold Range.Has
    decide

theorem witness_HostMemoryReadsBack :
    ∃ (s : State) (a : Nat) (v : Byte) (rest : List Turn),
      s.mem.wf ∧ s.agenda = .host (.memWrite a v) :: .host (.memRead a) :: rest ∧
      a < 2 ^ s.cfg.addrW ∧ (∀ g ∈ s.cfg.regions, ¬g.range.Has a) ∧
      ∀ d ∈ s.instances, ∀ p, d.running s.cfg = some p → ¬p.read.Has a ∧ ¬p.write.Has a := by
  refine ⟨{ running with agenda := [.host (.memWrite 0xFFFFFFFF 1), .host (.memRead 0xFFFFFFFF)] }, 0xFFFFFFFF, 1, [],
    by decide, rfl, by decide, nofun, ?_⟩
  intro d hd p hp
  rw [List.mem_singleton.1 hd] at hp
  cases hp.symm.trans running_plan
  unfold Range.Has
  decide

theorem witness_SamplesAreLittleEndian : ∃ m : Memory, m.wf := ⟨[(0x100, 0xE8), (0x101, 0x03)], by decide⟩

theorem witness_AccessAboveMemoryFaults :
    ∃ (s : State) (a : Nat) (rest : List Turn), 2 ^ s.cfg.addrW ≤ a ∧ s.agenda = .host (.memRead a) :: rest :=
  ⟨hostNext ready (.memRead 0x100000000), 0x100000000, [], by decide, rfl⟩

theorem witness_AccessOutsideTheWindowsFaults :
    ∃ (s : State) (addr width : Nat) (rest : List Turn),
      (∀ d ∈ s.instances, addr < d.base ∨ d.base + 256 ≤ addr) ∧ s.agenda = .host (.regRead addr width) :: rest :=
  ⟨hostNext ready (.regRead 0x100 4), 0x100, 4, [], by decide, rfl⟩

/-- Two instances: the selected one idle and ready, the other, with its window at 0x100, running ENCB of two samples from
`src` to `dst`. -/
def twoInstances (src dst : Nat) (t : Turn) : State :=
  { ready with
    others := [{ ((buffers State.reset src 4 dst 1 0 []).issue 5).dev with base := 0x100 }], agenda := [t] }

/-- The turns of the instance with its window at 0x100: its device's, its reset, a read and a write of its registers, at the
two ends of the window. -/
theorem turns_of_other :
    ∀ x ∈ [Turn.device 1, .host (.reset 1), .host (.regRead 0x100 4), .host (.regWrite 0x1FC 4 7)],
      (twoInstances 0x1000 0x2000 x).TurnOfOther 0 x := by
  intro x hx
  have hw (t : Turn) (addr : Nat) (h : 0x100 ≤ addr ∧ addr < 0x200) :
      (twoInstances 0x1000 0x2000 t).InWindowOf 0 addr :=
    ⟨⟨_, rfl, h⟩, fun hs => Nat.not_lt.2 h.1 hs.2, fun i _ hi => absurd hi (Nat.not_lt_zero i)⟩
  simp only [List.mem_cons, List.not_mem_nil, or_false] at hx
  rcases hx with rfl | rfl | rfl | rfl
  · rfl
  · rfl
  · exact hw _ _ (by decide)
  · exact hw _ _ (by decide)

/-- Every kind of turn, of the selected instance and of another. -/
theorem witness_InstancesShareOnlyMemory :
    (∀ x ∈ [Turn.device 0, .host (.reset 0), .host (.regRead 0 4), .host (.regWrite 0xFC 4 7)],
      ∃ (s t : State) (rest : List Turn), s.agenda = x :: rest ∧ s.TurnOfSelected x ∧ step s = .next t) ∧
    ∀ x ∈ [Turn.device 1, .host (.reset 1), .host (.regRead 0x100 4), .host (.regWrite 0x1FC 4 7)],
      ∃ (s t : State) (j : Nat) (rest : List Turn), s.agenda = x :: rest ∧ s.TurnOfOther j x ∧ step s = .next t := by
  constructor
  · intro x hx
    simp only [List.mem_cons, List.not_mem_nil, or_false] at hx
    rcases hx with rfl | rfl | rfl | rfl
    · exact ⟨twoInstances 0x1000 0x2000 _, _, [], rfl, rfl, rfl⟩
    · exact ⟨twoInstances 0x1000 0x2000 _, _, [], rfl, rfl, rfl⟩
    · exact ⟨twoInstances 0x1000 0x2000 _, _, [], rfl, ⟨by decide, by decide⟩, rfl⟩
    · exact ⟨twoInstances 0x1000 0x2000 _, _, [], rfl, ⟨by decide, by decide⟩, rfl⟩
  · intro x hx
    have h := turns_of_other x hx
    simp only [List.mem_cons, List.not_mem_nil, or_false] at hx
    rcases hx with rfl | rfl | rfl | rfl <;> exact ⟨twoInstances 0x1000 0x2000 _, _, 0, [], rfl, h, rfl⟩

theorem witness_EveryInstanceTakesTheSameTurns :
    ∀ x ∈ [Turn.device 1, .host (.reset 1), .host (.regRead 0x100 4), .host (.regWrite 0x1FC 4 7)],
      ∃ (s u t : State) (j : Nat) (d : Instance) (rest : List Turn),
        s.agenda = x :: rest ∧ s.others[j]? = some d ∧ s.TurnOfOther j x ∧
        u = { s with dev := d, others := s.others.set j s.dev, agenda := x.ofSelected :: rest } ∧ step u = .next t := by
  intro x hx
  have h := turns_of_other x hx
  simp only [List.mem_cons, List.not_mem_nil, or_false] at hx
  rcases hx with rfl | rfl | rfl | rfl <;>
    exact ⟨twoInstances 0x1000 0x2000 _, _, _, 0, _, [], rfl, rfl, h, rfl, rfl⟩

/-- What ENCB on `ready` would read and write. -/
def readyPlan : Plan := ⟨3, ⟨0x100, 6⟩, ⟨0x200, 2⟩⟩

/-- The other instance writes a byte the selected one would write, reads one it would write, and writes one it would
read. -/
theorem witness_ConflictingInstancesRefused :
    ∀ c ∈ [(0x1000, 0x201, 0x201), (0x1FE, 0x2000, 0x201), (0x1000, 0x105, 0x105)],
      ∃ (s : State) (w : Word) (rest : List Turn) (p q : Plan) (d : Instance) (a : Nat),
        s.agenda = .host (.regWrite s.dev.base 4 w) :: rest ∧ s.dev.busy = false ∧
        commandPlan s.cfg (s.dev.latch s.cfg w) = some p ∧ d ∈ s.others ∧ d.running s.cfg = some q ∧
        a = c.2.2 ∧
        ((p.write.Has a ∧ q.write.Has a) ∨ (p.write.Has a ∧ q.read.Has a) ∨ (p.read.Has a ∧ q.write.Has a)) ∧
        ∀ b, ¬(p.read.Has b ∧ p.write.Has b) := by
  intro c hc
  refine ⟨twoInstances c.1 c.2.1 (.host (.regWrite 0 4 5)), 5, [], readyPlan, ⟨2, ⟨c.1, 4⟩, ⟨c.2.1, 1⟩⟩, _, c.2.2, rfl, rfl,
    ?_, List.mem_cons_self, ?_, rfl, ?_, fun b => by simp only [readyPlan, Range.Has]; omega⟩
  · show commandPlan ready.cfg (ready.dev.latch ready.cfg 5) = some readyPlan
    decide
  · revert c; decide
  · revert c; simp only [readyPlan, Range.Has]; decide

theorem witness_TablesNeverChange : ∃ s t : State, step s = .next t := ⟨running, _, rfl⟩

theorem witness_CanonicalMemoriesAreEqual :
    ∃ m n : Memory, m.wf ∧ n.wf ∧ ∀ a, Memory.read m a = Memory.read n a :=
  ⟨[(0x100, 1)], Memory.write [] 0x100 1, by decide, by decide, fun _ => rfl⟩

theorem witness_StepKeepsTheInvariant : ∃ s t : State, s.Inv ∧ step s = .next t := by
  refine ⟨running, _, ⟨by decide, by decide, ?_⟩, rfl⟩
  intro d hd
  rw [List.mem_singleton.1 hd]
  refine ⟨by decide, fun _ => rfl, fun p hp => ?_⟩
  cases hp.symm.trans running_plan
  decide

end Sys2Proof.Tests
end

/-! PROOFS. The default constant tables (10_state.md R41, R43) satisfy what 00_scope.md R8 and R9 ask of any tables. -/
namespace Sys2Proof.Machine

theorem stepTableLow_isChain_lt : Config.stepTableLow.IsChain (· < ·) := by decide

theorem stepTableHigh_isChain_lt : Config.stepTableHigh.IsChain (· < ·) := by decide

/-- Since `<` is transitive it is enough to compare each entry with the next one: within each half of R41's table, and
the last entry of the low half with the first of the high half. -/
theorem stepTable_pairwise_lt : Config.stepTable.Pairwise (· < ·) := by
  have seam : ∀ x ∈ Config.stepTableLow.getLast?, ∀ y ∈ Config.stepTableHigh.head?, x < y := by decide
  exact (stepTableLow_isChain_lt.append stepTableHigh_isChain_lt seam).pairwise

/-- The first entry of an increasing table is its least; that of the default table is 7. -/
theorem seven_le_of_mem_stepTable {v : Nat} (hv : v ∈ Config.stepTable) : 7 ≤ v := by
  obtain rfl | htail := List.mem_cons.1 hv
  · exact Nat.le_refl 7
  · exact Nat.le_of_lt (List.rel_of_pairwise_cons stepTable_pairwise_lt htail)

theorem default_stepTableLegal : Params.default.StepTableLegal := by
  refine ⟨rfl, fun v hv => ?positive, stepTable_pairwise_lt.imp Nat.le_of_lt, fun v hv => ?first⟩
  case positive => exact Nat.lt_of_lt_of_le (by decide) (seven_le_of_mem_stepTable hv)
  case first =>
    obtain rfl : 7 = v := Option.some.inj hv
    decide

theorem default_indexTableLegal : Params.default.IndexTableLegal := by
  refine ⟨rfl, fun k hk => ?code0, fun k hk => ?code7⟩
  case code0 =>
    obtain rfl : -1 = k := Option.some.inj hk
    decide
  case code7 =>
    obtain rfl : 8 = k := Option.some.inj hk
    decide

/-- Settles O50: the step table's order is checked entry by entry, and its positivity follows from the order and the
first entry. -/
theorem defaultTablesAreLegal : Obligations.DefaultTablesAreLegal :=
  ⟨default_stepTableLegal, default_indexTableLegal, stepTable_pairwise_lt⟩

end Sys2Proof.Machine

/-! PROOFS. What one turn of an agent can do, said once for every turn, on the selected instance or on another
(70_reset_and_hazards.md R210-R217; 60_exceptions.md R196). -/
namespace Sys2Proof.Machine

/-- What an access of the host to the selected instance or to buffer memory can do. -/
inductive HostMove (s : State) : State → Prop where
  /-- A read changes only the value read and the count of free values (R48, R72). -/
  | read (v : Word) (n : Nat) : HostMove s { s with rdata := v, draws := n }
  /-- A guarded register written while `BUSY` is 1 (R218). -/
  | overflow : HostMove s { s with dev := s.dev.overflow }
  /-- An operand register, or a write that is ignored (R39, R47). -/
  | operand (v : Word) (r : Option Reg) (free : (s.dev.busy && Reg.guarded r) = false) :
      HostMove s { s with dev := s.dev.setOperand v r }
  /-- An issue that is not refused (R216). -/
  | issue (w : Word) (idle : s.dev.busy = false) (admitted : (s.issue w).issueRefusal = none) : HostMove s (s.issue w)
  /-- A byte of buffer memory, outside every running range (R72). -/
  | store (a : Nat) (v : Byte) (below : a < 2 ^ s.cfg.addrW) (free : s.inRunningRange a = false) :
      HostMove s (s.writeByte a v)

/-- What a turn of the selected instance, or an access to buffer memory, can do. -/
inductive Move (s t : State) : Prop where
  | device (h : deviceTurn s = .next t)
  | reset (h : hostReset s = .next t)
  | host (h : HostMove s t)

/-- `R` relates the states directly, or between two exchanges of the selected instance with another (R196). -/
def OnSome (R : State → State → Prop) (s t : State) : Prop :=
  R s t ∨ ∃ j u, j < s.others.length ∧ R (s.swap j) u ∧ t = u.swap j

theorem OnSome.imp {R Q : State → State → Prop} (hRQ : ∀ {s t}, R s t → Q s t) {s t : State} (h : OnSome R s t) :
    OnSome Q s t :=
  Or.imp hRQ (fun ⟨j, u, hj, hu, ht⟩ => ⟨j, u, hj, hRQ hu, ht⟩) h

theorem onInstance_onSome {f : State → Host.Outcome State Fault Refusal} {R : State → State → Prop}
    (hf : ∀ {s t}, f s = .next t → R s t) {k : Nat} {s t : State} (h : onInstance k f s = .next t) : OnSome R s t := by
  rcases onInstance_next h with ⟨-, hs⟩ | ⟨j, u, -, hj, hu, rfl⟩
  · exact .inl (hf hs)
  · exact .inr ⟨j, u, hj, hf hu, rfl⟩

theorem onWindow_onSome {f : State → Host.Outcome State Fault Refusal} {R : State → State → Prop}
    (hf : ∀ {s t}, f s = .next t → R s t) {addr : Nat} {s t : State} (h : onWindow addr f s = .next t) :
    OnSome R s t := by
  obtain ⟨k, -, h⟩ := onWindow_next h
  exact onInstance_onSome hf h

theorem hostRegRead_hostMove {addr width : Nat} {s t : State} (h : hostRegRead addr width s = .next t) :
    HostMove s t := by
  obtain ⟨v, n, rfl⟩ := hostRegRead_next h
  exact .read v n

theorem hostRegWrite_hostMove {addr width : Nat} {v : Word} {s t : State}
    (h : hostRegWrite addr width v s = .next t) : HostMove s t := by
  rcases hostRegWrite_next h with rfl | ⟨hb, hr, rfl⟩ | ⟨r, hf, rfl⟩
  · exact .overflow
  · exact .issue v hb hr
  · exact .operand v r hf

theorem hostMemRead_hostMove {a : Nat} {s t : State} (h : hostMemRead a s = .next t) : HostMove s t := by
  obtain ⟨v, n, rfl⟩ := hostMemRead_next h
  exact .read v n

theorem hostMemWrite_hostMove {a : Nat} {v : Byte} {s t : State} (h : hostMemWrite a v s = .next t) :
    HostMove s t := by
  obtain ⟨ha, hf, rfl⟩ := hostMemWrite_next h
  exact .store a v ha hf

/-- Every access of the host, the reset input apart (R213). -/
theorem hostTurn_next {a : HostAction} {s t : State} (ha : ∀ k, a ≠ .reset k) (h : hostTurn a s = .next t) :
    OnSome HostMove s t := by
  cases a with
  | regRead addr width => exact onWindow_onSome hostRegRead_hostMove h
  | regWrite addr width v => exact onWindow_onSome hostRegWrite_hostMove h
  | memRead a => exact .inl (hostMemRead_hostMove h)
  | memWrite a v => exact .inl (hostMemWrite_hostMove h)
  | reset k => exact absurd rfl (ha k)

/-- Every turn of every agent. -/
theorem takeTurn_next {x : Turn} {s t : State} (h : takeTurn x s = .next t) : OnSome Move s t := by
  cases x with
  | device k => exact onInstance_onSome Move.device h
  | host a =>
    cases a with
    | reset k => exact onInstance_onSome Move.reset h
    | regRead addr width => exact (hostTurn_next (a := .regRead addr width) nofun h).imp Move.host
    | regWrite addr width v => exact (hostTurn_next (a := .regWrite addr width v) nofun h).imp Move.host
    | memRead a => exact (hostTurn_next (a := .memRead a) nofun h).imp Move.host
    | memWrite a v => exact (hostTurn_next (a := .memWrite a v) nofun h).imp Move.host

/-- Every step, which first takes its turn off the agenda. -/
theorem step_move {s t : State} (h : step s = .next t) : ∃ rest, OnSome Move { s with agenda := rest } t := by
  rcases step_next h with ⟨-, h⟩ | ⟨x, rest, -, h⟩
  · exact ⟨s.agenda, .inl (.device h)⟩
  · exact ⟨rest, takeTurn_next h⟩

/-! ### What the exchange of instances keeps -/

theorem OnSome.keeps {R : State → State → Prop} {s t : State} (h : OnSome R s t) (P : State → Prop)
    (hswap : ∀ {s} j, P s → P (s.swap j)) (hR : ∀ {s t}, P s → R s t → P t) (hs : P s) : P t := by
  rcases h with h | ⟨j, u, -, h, rfl⟩
  · exact hR hs h
  · exact hswap j (hR (hswap j hs) h)

/-- The value of `g` is as before at the selected instance and at each of the others. -/
structure State.SameField {α : Type} (g : Instance → α) (s t : State) : Prop where
  dev : g t.dev = g s.dev
  others : t.others.map g = s.others.map g

/-- A change between two exchanges that leaves `g` alone leaves it alone at every instance. -/
theorem State.SameField.of_swap {α : Type} {g : Instance → α} {s u : State} {j : Nat} (hj : j < s.others.length)
    (h : (s.swap j).SameField g u) : s.SameField g (u.swap j) := by
  obtain ⟨hd, ho⟩ := h
  simp only [State.swap_eq hj, List.map_set] at hd ho
  have hlen : u.others.length = s.others.length := by simpa using congrArg List.length ho
  have hu : j < u.others.length := hlen.symm ▸ hj
  rw [State.swap_eq hu]
  constructor
  · have := congrArg (·[j]?) ho
    simpa [hj, hu] using this
  · rw [List.map_set, ho, hd, List.set_set, ← List.map_set, List.set_getElem_self]

/-- A relation that leaves `g` of the selected instance alone, and the others altogether, leaves `g` alone everywhere
when it runs on any one of them. -/
theorem OnSome.sameField {α : Type} {g : Instance → α} {R : State → State → Prop}
    (hR : ∀ {s t}, R s t → t.others = s.others ∧ g t.dev = g s.dev) {s t : State} (h : OnSome R s t) :
    s.SameField g t := by
  have direct {s t : State} (h : R s t) : s.SameField g t := ⟨(hR h).2, congrArg _ (hR h).1⟩
  rcases h with h | ⟨j, u, hj, h, rfl⟩
  · exact direct h
  · exact (direct h).of_swap hj

end Sys2Proof.Machine

/-! PROOFS. What a move on the selected instance leaves alone (10_state.md R30, R31, R39, R40, R42). -/
namespace Sys2Proof.Machine

/-! ### Commands -/

theorem State.SameAround.refl (s : State) : s.SameAround s :=
  ⟨⟨rfl, rfl, rfl, rfl, rfl, rfl, rfl⟩, rfl, rfl, rfl, rfl⟩

theorem State.fail_sameAround (s : State) (e : ErrCode) : s.SameAround (s.fail e) :=
  ⟨⟨rfl, rfl, rfl, rfl, rfl, rfl, rfl⟩, rfl, rfl, rfl, rfl⟩

theorem OnlyStreams.complete_sameAround {s u : State} (h : OnlyStreams s u) (v : Word) : s.SameAround (u.complete v) :=
  ⟨h.operands.trans ⟨rfl, rfl, rfl, rfl, rfl, rfl, rfl⟩, h.others, h.cfg, h.agenda, h.rdata⟩

theorem exec_sameAround {i : Instr} {s t : State} (h : exec i s = .next t) : s.SameAround t := by
  rcases exec_next h with rfl | ⟨e, rfl⟩ | ⟨u, v, hu, rfl⟩
  · exact .refl _
  · exact s.fail_sameAround e
  · exact hu.complete_sameAround v

theorem deviceTurn_sameAround {s t : State} (h : deviceTurn s = .next t) : s.SameAround t := by
  rcases deviceTurn_next h with rfl | rfl | ⟨i, -, -, h⟩
  · exact .refl _
  · exact s.fail_sameAround _
  · exact exec_sameAround h

/-- Only the buffer commands write memory (20_memory.md R67). -/
theorem exec_mem_of_not_buffer {i : Instr} {s t : State} (h : exec i s = .next t) (he : i.mnemonic ≠ .encb)
    (hd : i.mnemonic ≠ .decb) : t.mem = s.mem := by
  cases i with
  | init => cases h; rfl
  | ldst p k =>
    simp only [exec, execLdst] at h
    split at h <;> cases h <;> rfl
  | encs x => cases h; rfl
  | decs c => cases h; rfl
  | encb cont => exact absurd rfl he
  | decb cont => exact absurd rfl hd

theorem execEncb_sameOutside {cont : Bool} {s t : State} (h : execEncb cont s = .next t) :
    s.SameOutside t s.dev.hid.dstl.toNat ((s.dev.hid.srclenl.toNat / 2 + 1) / 2) := by
  intro a ha
  rcases runPlan_next h with rfl | ⟨e, -, rfl⟩ | ⟨p, hp, -, rfl⟩
  · rfl
  · rfl
  · obtain ⟨rfl, -⟩ := encbPlan_eq_ok hp
    rw [State.complete_mem, encbLoop_read_outside _ _ _ _ _ (by simpa [encbRanges, shiftRight_one] using ha),
      State.setAdp_mem]

theorem execDecb_sameOutside {cont : Bool} {s t : State} (h : execDecb cont s = .next t) :
    s.SameOutside t s.dev.hid.dstl.toNat (2 * s.dev.hid.nsampl.toNat) := by
  intro a ha
  rcases runPlan_next h with rfl | ⟨e, -, rfl⟩ | ⟨p, hp, -, rfl⟩
  · rfl
  · rfl
  · obtain ⟨rfl, -⟩ := decbPlan_eq_ok hp
    rw [State.complete_mem, decbLoop_read_outside _ _ _ _ _ (by simpa [decbRanges] using ha), State.setAdp_mem]

/-- Settles O23: only the loops of ENCB and DECB write memory, and each writes only inside its destination. -/
theorem commandFrame : Obligations.CommandFrame := by
  intro i s t h
  refine ⟨exec_sameAround h, fun he hd a => ?other, fun he => ?encb, fun hd => ?decb⟩
  case other => rw [exec_mem_of_not_buffer h he hd]
  case encb =>
    cases i with
    | encb cont => exact execEncb_sameOutside h
    | init | ldst | encs | decs | decb => cases he
  case decb =>
    cases i with
    | decb cont => exact execDecb_sameOutside h
    | init | ldst | encs | decs | encb => cases hd

/-! ### Register writes and reset -/

@[simp] theorem Instance.setOperand_base (d : Instance) (v : Word) (r : Option Reg) :
    (d.setOperand v r).base = d.base := by
  unfold Instance.setOperand; split <;> rfl

@[simp] theorem Instance.setOperand_adp (d : Instance) (v : Word) (r : Option Reg) :
    (d.setOperand v r).adp = d.adp := by
  unfold Instance.setOperand; split <;> rfl

@[simp] theorem Instance.setOperand_busy (d : Instance) (v : Word) (r : Option Reg) :
    (d.setOperand v r).busy = d.busy := by
  unfold Instance.setOperand; split <;> rfl

@[simp] theorem Instance.setOperand_err (d : Instance) (v : Word) (r : Option Reg) :
    (d.setOperand v r).err = d.err := by
  unfold Instance.setOperand; split <;> rfl

@[simp] theorem Instance.setOperand_statusWord (d : Instance) (v : Word) (r : Option Reg) :
    (d.setOperand v r).statusWord = d.statusWord := by
  unfold Instance.setOperand; split <;> rfl

@[simp] theorem Instance.setOperand_result (d : Instance) (v : Word) (r : Option Reg) :
    (d.setOperand v r).result = d.result := by
  unfold Instance.setOperand; split <;> rfl

@[simp] theorem Instance.setOperand_hid (d : Instance) (v : Word) (r : Option Reg) :
    (d.setOperand v r).hid = d.hid := by
  unfold Instance.setOperand; split <;> rfl

@[simp] theorem State.abandonWrites_cfg (s : State) : s.abandonWrites.cfg = s.cfg := by
  unfold State.abandonWrites; split <;> rfl

@[simp] theorem State.abandonWrites_others (s : State) : s.abandonWrites.others = s.others := by
  unfold State.abandonWrites; split <;> rfl

@[simp] theorem State.abandonWrites_dev (s : State) : s.abandonWrites.dev = s.dev := by
  unfold State.abandonWrites; split <;> rfl

theorem HostMove.cfg {s t : State} (h : HostMove s t) : t.cfg = s.cfg := by cases h <;> rfl

theorem HostMove.others {s t : State} (h : HostMove s t) : t.others = s.others := by cases h <;> rfl

theorem HostMove.base {s t : State} (h : HostMove s t) : t.dev.base = s.dev.base := by
  cases h with
  | operand v r => exact s.dev.setOperand_base v r
  | read | overflow | issue | store => rfl

theorem HostMove.adp {s t : State} (h : HostMove s t) : t.dev.adp = s.dev.adp := by
  cases h with
  | operand v r => exact s.dev.setOperand_adp v r
  | read | overflow | issue | store => rfl

theorem Move.cfg {s t : State} (h : Move s t) : t.cfg = s.cfg := by
  cases h with
  | device h => exact (deviceTurn_sameAround h).cfg
  | reset h => cases h; simp
  | host h => exact h.cfg

theorem Move.others {s t : State} (h : Move s t) : t.others = s.others := by
  cases h with
  | device h => exact (deviceTurn_sameAround h).others
  | reset h => cases h; simp
  | host h => exact h.others

theorem Move.base {s t : State} (h : Move s t) : t.dev.base = s.dev.base := by
  cases h with
  | device h => exact (deviceTurn_sameAround h).operands.base
  | reset h => cases h; simp [Instance.resetWith]
  | host h => exact h.base

/-- Settles O42: a host access leaves `PRED` and `INDEX` of the instance it runs on alone, and touches no other. -/
theorem hostNeverWritesTheAdaptationState : Obligations.HostNeverWritesTheAdaptationState := by
  intro s t h rest ha hreset hstep
  rw [step_cons ha] at hstep
  obtain ⟨hdev, hothers⟩ := (hostTurn_next hreset hstep).sameField fun hm => ⟨hm.others, hm.adp⟩
  exact ⟨hdev, hothers⟩

/-- Settles O51: no move writes the parameters or the base of the instance it runs on, and it touches no other. -/
theorem tablesNeverChange : Obligations.TablesNeverChange := by
  intro s t h
  obtain ⟨rest, hm⟩ := step_move h
  obtain ⟨hdev, hothers⟩ := hm.sameField fun hm => ⟨hm.others, hm.base⟩
  refine ⟨?_, hdev, hothers⟩
  exact hm.keeps (fun u => u.cfg = s.cfg) (fun j hu => (State.swap_cfg _ j).trans hu)
    (fun hu hmove => hmove.cfg.trans hu) rfl

end Sys2Proof.Machine

/-! PROOFS. The invariant holds at reset and every step keeps it (10_state.md R32, R37; 20_memory.md R61, R77). -/
namespace Sys2Proof.Machine

/-- An idle instance runs nothing, so only its `INDEX` is in question. -/
theorem Instance.legal_of_idle {c : Params} {d : Instance} (hidle : d.busy = false) (hindex : d.adp.index.toNat ≤ 88) :
    d.Legal c :=
  ⟨hindex, fun hb => by simp [hidle] at hb, fun p hp => by simp [Instance.running, hidle] at hp⟩

/-- Settles O53: memory is empty and the one instance is idle in the fresh state. -/
theorem resetSatisfiesTheInvariant : Obligations.ResetSatisfiesTheInvariant := by
  refine ⟨Memory.reset_wf, fun x hx => absurd hx List.not_mem_nil, fun d hd => ?_⟩
  obtain rfl : d = State.reset.dev := List.mem_singleton.1 hd
  exact Instance.legal_of_idle rfl (by decide)

theorem State.Inv.legal_dev {s : State} (hs : s.Inv) : s.dev.Legal s.cfg := hs.legal _ List.mem_cons_self

/-- A step that leaves the parameters and the other instances alone answers for its own instance and for memory. -/
theorem State.Inv.of_dev_mem {s t : State} (hs : s.Inv) (hcfg : t.cfg = s.cfg) (hothers : t.others = s.others)
    (hdev : t.dev.Legal s.cfg) (hwf : t.mem.wf) (hlt : ∀ x ∈ t.mem, x.1 < 2 ^ s.cfg.addrW) : t.Inv := by
  refine ⟨hwf, hcfg ▸ hlt, fun d hd => ?_⟩
  rw [State.instances, hothers] at hd
  rw [hcfg]
  rcases List.mem_cons.1 hd with rfl | hd
  · exact hdev
  · exact hs.legal d (List.mem_cons_of_mem _ hd)

theorem State.Inv.swap {s : State} (j : Nat) (hs : s.Inv) : (s.swap j).Inv := by
  refine ⟨?_, ?_, fun d hd => ?_⟩
  · simpa using hs.mem_wf
  · simpa using hs.mem_lt
  · simpa using hs.legal d (State.mem_swap_instances hd)

/-! ### Commands -/

/-- `u` is a state on the way of a command that started in `s`, and keeps what the invariant asks of memory and
`INDEX`. -/
structure StreamInv (s u : State) : Prop where
  streams : OnlyStreams s u
  mem_wf : u.mem.wf
  mem_lt : ∀ x ∈ u.mem, x.1 < 2 ^ s.cfg.addrW
  index_le : u.dev.adp.index.toNat ≤ 88

theorem State.Inv.setAdp {s : State} (hs : s.Inv) {a : Adaptation} (ha : a.index.toNat ≤ 88) :
    StreamInv s (s.setAdp a) :=
  ⟨OnlyStreams.setAdp s a, hs.mem_wf, hs.mem_lt, ha⟩

theorem State.Inv.startAdp_index_le {s : State} (hs : s.Inv) (cont : Bool) : (s.startAdp cont).index.toNat ≤ 88 := by
  cases cont with
  | false => exact Nat.zero_le 88
  | true => exact hs.legal_dev.index_le

theorem State.Inv.complete {s u : State} (hs : s.Inv) (h : StreamInv s u) (v : Word) : (u.complete v).Inv :=
  hs.of_dev_mem h.streams.cfg h.streams.others (Instance.legal_of_idle rfl h.index_le) h.mem_wf h.mem_lt

theorem State.Inv.fail {s : State} (hs : s.Inv) (e : ErrCode) : (s.fail e).Inv :=
  hs.of_dev_mem rfl rfl (Instance.legal_of_idle rfl hs.legal_dev.index_le) hs.mem_wf hs.mem_lt

/-- ENCB's checks keep its loop inside the address space (20_memory.md R69). -/
theorem StreamInv.encbLoop {s u : State} {p : Plan} (hp : encbPlan s.cfg s.dev.hid = .ok p) (h : StreamInv s u) :
    StreamInv s (encbLoop p p.samples 0 u) := by
  obtain ⟨rfl, -, -, -, hfits⟩ := encbPlan_eq_ok hp
  have hbelow := (Range.fits_iff _ _).1 hfits
  refine ⟨h.streams.trans (encbLoop_onlyStreams _ _ _ _), encbLoop_wf _ _ _ _ h.mem_wf,
    encbLoop_mem_lt _ _ _ _ _ h.mem_lt fun hn => ?_, encbLoop_index_le _ _ _ _ h.index_le⟩
  simp only [Range.Below, encbRanges, halfUp_eq] at hbelow hn ⊢
  omega

/-- DECB's checks keep its loop inside the address space (20_memory.md R69). -/
theorem StreamInv.decbLoop {s u : State} {p : Plan} (hp : decbPlan s.cfg s.dev.hid = .ok p) (h : StreamInv s u) :
    StreamInv s (decbLoop p p.samples 0 u) := by
  obtain ⟨rfl, -, -, -, hfits⟩ := decbPlan_eq_ok hp
  have hbelow := (Range.fits_iff _ _).1 hfits
  refine ⟨h.streams.trans (decbLoop_onlyStreams _ _ _ _), decbLoop_wf _ _ _ _ h.mem_wf,
    decbLoop_mem_lt _ _ _ _ _ h.mem_lt fun hn => ?_, decbLoop_index_le _ _ _ _ h.index_le⟩
  simp only [Range.Below, decbRanges] at hbelow hn ⊢
  omega

theorem runPlan_keeps_inv {plan : Except ErrCode Plan} {cont : Bool} {loop : Plan → State → State} {s t : State}
    (hs : s.Inv) (hloop : ∀ {p u}, plan = .ok p → StreamInv s u → StreamInv s (loop p u))
    (h : runPlan plan cont loop s = .next t) : t.Inv := by
  rcases runPlan_next h with rfl | ⟨e, -, rfl⟩ | ⟨p, hp, -, rfl⟩
  · exact hs
  · exact hs.fail e
  · exact hs.complete (hloop hp (hs.setAdp (hs.startAdp_index_le cont))) _

theorem exec_keeps_inv {i : Instr} {s t : State} (hs : s.Inv) (h : exec i s = .next t) : t.Inv := by
  cases i with
  | init => cases h; exact hs.complete (hs.setAdp (by decide)) _
  | ldst p k =>
    simp only [exec, execLdst] at h
    split at h <;> cases h
    · exact hs.fail _
    · exact hs.complete (hs.setAdp (Nat.le_of_not_lt ‹_›)) _
  | encs x => cases h; exact hs.complete (hs.setAdp (adapt_index_le _ _ _)) _
  | decs c => cases h; exact hs.complete (hs.setAdp (adapt_index_le _ _ _)) _
  | encb cont => exact runPlan_keeps_inv hs StreamInv.encbLoop h
  | decb cont => exact runPlan_keeps_inv hs StreamInv.decbLoop h

theorem deviceTurn_keeps_inv {s t : State} (hs : s.Inv) (h : deviceTurn s = .next t) : t.Inv := by
  rcases deviceTurn_next h with rfl | rfl | ⟨i, -, -, h⟩
  · exact hs
  · exact hs.fail _
  · exact exec_keeps_inv hs h

/-! ### Host accesses and reset -/

@[simp] theorem Instance.setOperand_running (c : Params) (d : Instance) (v : Word) (r : Option Reg) :
    (d.setOperand v r).running c = d.running c := by
  simp [Instance.running]

theorem Instance.Legal.overflow {c : Params} {d : Instance} (h : d.Legal c) : d.overflow.Legal c :=
  ⟨h.index_le, h.err_ok, h.not_aliased⟩

theorem Instance.Legal.setOperand {c : Params} {d : Instance} (h : d.Legal c) (v : Word) (r : Option Reg) :
    (d.setOperand v r).Legal c :=
  ⟨by simpa using h.index_le, by simpa using h.err_ok, by simpa using h.not_aliased⟩

/-- An issue clears `ERR`, and a command whose ranges overlap is refused at issue (60_exceptions.md R188). -/
theorem State.issue_legal {s : State} {w : Word} (h : s.dev.Legal s.cfg) (hr : (s.issue w).issueRefusal = none) :
    (s.issue w).dev.Legal s.cfg := by
  refine ⟨h.index_le, fun _ => rfl, fun p hp => ?_⟩
  have hplan : commandPlan (s.issue w).cfg (s.issue w).dev.hid = some p := hp
  rw [State.issueRefusal, hplan] at hr
  exact State.not_overlaps_of_planRefusal hr

theorem HostMove.keeps_inv {s t : State} (hs : s.Inv) (h : HostMove s t) : t.Inv := by
  cases h with
  | read v n => exact hs.of_dev_mem rfl rfl hs.legal_dev hs.mem_wf hs.mem_lt
  | overflow => exact hs.of_dev_mem rfl rfl hs.legal_dev.overflow hs.mem_wf hs.mem_lt
  | operand v r => exact hs.of_dev_mem rfl rfl (hs.legal_dev.setOperand v r) hs.mem_wf hs.mem_lt
  | issue w _ hr => exact hs.of_dev_mem rfl rfl (State.issue_legal hs.legal_dev hr) hs.mem_wf hs.mem_lt
  | store a v ha =>
    refine hs.of_dev_mem rfl rfl hs.legal_dev (Memory.write_wf hs.mem_wf a v) fun x hx => ?_
    rcases Memory.mem_write hx with hx | ⟨rfl, -⟩
    · exact hs.mem_lt x hx
    · exact ha

/-- The bytes that reset makes free lie in the write range of the abandoned command, so in the address space (R211). -/
theorem State.Inv.abandonWrites {s : State} (hs : s.Inv) : s.abandonWrites.Inv := by
  rcases s.abandonWrites_cases with ⟨-, h⟩ | ⟨p, hp, h⟩ <;> rw [h]
  · exact hs
  · refine hs.of_dev_mem rfl rfl hs.legal_dev (Memory.scramble_wf hs.mem_wf _ _ _) fun x hx => ?_
    rcases Memory.mem_scramble hx with hx | hx
    · exact hs.mem_lt x hx
    · exact Instance.running_lt hp (.inr hx)

theorem State.Inv.resetRegisters {s : State} (hs : s.Inv) : s.resetRegisters.Inv :=
  hs.of_dev_mem rfl rfl (Instance.legal_of_idle rfl (by simp [Instance.resetWith, Adaptation.fresh])) hs.mem_wf hs.mem_lt

theorem Move.keeps_inv {s t : State} (hs : s.Inv) (h : Move s t) : t.Inv := by
  cases h with
  | device h => exact deviceTurn_keeps_inv hs h
  | reset h => cases h; exact hs.abandonWrites.resetRegisters
  | host h => exact h.keeps_inv hs

/-- Settles O54: the invariant does not speak of the agenda, and every move and every exchange of instances keeps
it. -/
theorem stepKeepsTheInvariant : Obligations.StepKeepsTheInvariant := by
  intro s t hs h
  obtain ⟨rest, hm⟩ := step_move h
  have hs' : State.Inv { s with agenda := rest } := ⟨hs.mem_wf, hs.mem_lt, hs.legal⟩
  exact hm.keeps State.Inv State.Inv.swap Move.keeps_inv hs'

end Sys2Proof.Machine

/-! PROOFS. What the host reads and writes through the register window of the selected instance (10_state.md R35-R39,
R47-R49). -/
namespace Sys2Proof.Machine

/-! ### Register accesses at an offset of the window -/

theorem step_regRead {s : State} {offset : BitVec 8} {rest : List Turn}
    (h : s.agenda = .host (.regRead (s.dev.base + offset.toNat) 4) :: rest) (ha : offset.toNat % 4 = 0) :
    step s = .next (State.readReg { s with agenda := rest } (Reg.ofOffset offset)) := by
  rw [step_cons h]
  refine (hostTurn_regRead_base { s with agenda := rest } offset 4).trans ?_
  simp [windowRead, regAccessOk, ha]

theorem step_regWrite {s : State} {offset : BitVec 8} {v : Word} {rest : List Turn}
    (h : s.agenda = .host (.regWrite (s.dev.base + offset.toNat) 4 v) :: rest) (ha : offset.toNat % 4 = 0) :
    step s = State.writeReg { s with agenda := rest } (Reg.ofOffset offset) v := by
  rw [step_cons h]
  refine (hostTurn_regWrite_base { s with agenda := rest } offset 4 v).trans ?_
  simp [windowWrite, regAccessOk, ha]

/-- The offsets above those of the registers are reserved (R35). -/
theorem Reg.ofOffset_reserved {offset : BitVec 8} (h : 0x28 ≤ offset.toNat) : Reg.ofOffset offset = none := by
  unfold Reg.ofOffset
  split
  case h_11 => rfl
  all_goals omega

/-- The offsets of the read-only registers `STATUS`, `RESULT`, `PRED` and `INDEX` (R35, R47). -/
theorem Reg.guarded_readOnly :
    ∀ offset ∈ [0x04#8, 0x08#8, 0x0C#8, 0x10#8], Reg.guarded (Reg.ofOffset offset) = false := by decide

/-- The offsets of the operand registers (R35). -/
theorem Reg.operand_offsets : ∀ offset ∈ [0x14#8, 0x18#8, 0x1C#8, 0x20#8, 0x24#8],
    offset.toNat % 4 = 0 ∧ Reg.ofOffset offset ≠ some .cmd := by decide

/-- A read that R48 leaves specified. -/
theorem State.readReg_specified {s : State} {r : Option Reg}
    (h : s.dev.busy = false ∨ Reg.unspecifiedWhileBusy r = false) :
    s.readReg r = { s with rdata := s.dev.regValue s.cfg r } := by
  have : (s.dev.busy && Reg.unspecifiedWhileBusy r) = false := by rcases h with h | h <;> simp [h]
  simp [State.readReg, this]

theorem Instance.setOperand_unguarded {r : Option Reg} (h : Reg.guarded r = false) (d : Instance) (v : Word) :
    d.setOperand v r = d := by
  unfold Instance.setOperand
  split
  case h_6 => rfl
  all_goals cases h

/-- A read, in the window, of a register that R48 leaves specified. -/
theorem step_regRead_specified {s : State} {offset : BitVec 8} {rest : List Turn}
    (h : s.agenda = .host (.regRead (s.dev.base + offset.toNat) 4) :: rest) (ha : offset.toNat % 4 = 0)
    (hr : s.dev.busy = false ∨ Reg.unspecifiedWhileBusy (Reg.ofOffset offset) = false) :
    step s = .next { s with agenda := rest, rdata := s.dev.regValue s.cfg (Reg.ofOffset offset) } := by
  rw [step_regRead h ha, State.readReg_specified (s := { s with agenda := rest }) hr]

/-- A write to a register that is not guarded is ignored (R47). -/
theorem State.writeReg_unguarded {s : State} {r : Option Reg} (h : Reg.guarded r = false) (v : Word) :
    s.writeReg r v = .next s := by
  have hcmd : r ≠ some .cmd := by rintro rfl; cases h
  simp [State.writeReg, h, hcmd, Instance.setOperand_unguarded h]

/-- A write to an idle instance, other than an issue (R39). -/
theorem State.writeReg_idle {s : State} {r : Option Reg} (hidle : s.dev.busy = false) (hcmd : r ≠ some .cmd) (v : Word) :
    s.writeReg r v = .next { s with dev := s.dev.setOperand v r } := by
  simp [State.writeReg, hidle, hcmd]

/-- Settles O37: a read-only register or a reserved offset is not guarded, and `CMD` and a reserved offset read 0. -/
theorem readOnlyAndReservedOffsets : Obligations.ReadOnlyAndReservedOffsets := by
  intro s offset v rest ha
  constructor
  · intro ho h
    have hguard : Reg.guarded (Reg.ofOffset offset) = false := by
      rcases ho with ho | ho
      · exact Reg.guarded_readOnly offset ho
      · rw [Reg.ofOffset_reserved ho]; rfl
    rw [step_regWrite h ha, State.writeReg_unguarded hguard]
  · intro ho h
    rcases ho with rfl | ho
    · exact step_regRead_specified h ha (.inr rfl)
    · have hnone := Reg.ofOffset_reserved ho
      simpa [hnone, Instance.regValue] using step_regRead_specified h ha (.inr (by rw [hnone]; rfl))

/-! ### The operand registers -/

theorem core_run_two {s u t : State} (h : step s = .next u) (h' : step u = .next t) :
    Sys2Proof.core.run 2 s = .next t := by
  simp [Host.Core.run, core, h, h']

/-- An operand written while idle and then read (R39): the value read, and the register written. -/
theorem run_writeThenRead {s : State} {offset : BitVec 8} {v : Word} {rest : List Turn}
    (h : s.agenda =
      .host (.regWrite (s.dev.base + offset.toNat) 4 v) :: .host (.regRead (s.dev.base + offset.toNat) 4) :: rest)
    (hidle : s.dev.busy = false) (ha : offset.toNat % 4 = 0) (hcmd : Reg.ofOffset offset ≠ some .cmd) :
    Sys2Proof.core.run 2 s = .next { s with
      agenda := rest
      dev := s.dev.setOperand v (Reg.ofOffset offset)
      rdata := (s.dev.setOperand v (Reg.ofOffset offset)).regValue s.cfg (Reg.ofOffset offset) } := by
  refine core_run_two ((step_regWrite h ha).trans (State.writeReg_idle (by exact hidle) hcmd v)) ?_
  exact step_regRead_specified (by simp) ha (.inl (by simpa using hidle))

/-- Settles O38: the write sets its own register only, and the read that follows returns it. -/
theorem operandsReadBack : Obligations.OperandsReadBack := by
  intro s offset v rest h hidle ho
  obtain ⟨ha, hcmd⟩ := Reg.operand_offsets offset ho
  refine ⟨_, run_writeThenRead h hidle ha hcmd, ?_⟩
  simp only [Instance.setOperand_adp, Instance.setOperand_statusWord, Instance.setOperand_result,
    Instance.setOperand_hid, true_and]
  simp only [List.mem_cons, List.not_mem_nil, or_false] at ho
  rcases ho with rfl | rfl | rfl | rfl | rfl
  all_goals simp [Reg.ofOffset, Instance.setOperand, Instance.regValue, Params.addrBits_toNat]

/-! ### Register reads -/

@[simp] theorem State.readReg_dev (s : State) (r : Option Reg) : (s.readReg r).dev = s.dev := by
  unfold State.readReg; split <;> rfl

@[simp] theorem State.readReg_mem (s : State) (r : Option Reg) : (s.readReg r).mem = s.mem := by
  unfold State.readReg; split <;> rfl

@[simp] theorem State.readReg_others (s : State) (r : Option Reg) : (s.readReg r).others = s.others := by
  unfold State.readReg; split <;> rfl

@[simp] theorem State.readReg_cfg (s : State) (r : Option Reg) : (s.readReg r).cfg = s.cfg := by
  unfold State.readReg; split <;> rfl

@[simp] theorem State.readReg_agenda (s : State) (r : Option Reg) : (s.readReg r).agenda = s.agenda := by
  unfold State.readReg; split <;> rfl

theorem State.readReg_rdata {s : State} {r : Option Reg}
    (h : s.dev.busy = false ∨ Reg.unspecifiedWhileBusy r = false) : (s.readReg r).rdata = s.dev.regValue s.cfg r := by
  rw [State.readReg_specified h]

/-- The offsets of the registers that hold a value, `STATUS` apart (R35). -/
theorem Reg.readable_aligned : ∀ offset ∈ [0x08#8, 0x0C#8, 0x10#8, 0x14#8, 0x18#8, 0x1C#8, 0x20#8, 0x24#8],
    offset.toNat % 4 = 0 := by decide

/-- Settles O40: a read changes only the value read, which R48 leaves unspecified for three registers while busy. -/
theorem registerReads : Obligations.RegisterReads := by
  intro s offset rest h ho
  have hvalue {r : Option Reg} (hr : s.dev.busy = false ∨ Reg.unspecifiedWhileBusy r = false) :
      (State.readReg { s with agenda := rest } r).rdata = s.dev.regValue s.cfg r := State.readReg_rdata hr
  refine ⟨_, step_regRead h (Reg.readable_aligned offset ho), by simp, by simp, by simp, by simp, by simp,
    ?result, ?pred, ?index, ?src, ?dst, ?srclen, ?dstlen, ?nsamp⟩
  case result => rintro rfl hidle; exact hvalue (.inl hidle)
  case pred =>
    rintro rfl hidle
    rw [hvalue (.inl hidle)]
    exact BitVec.toInt_signExtend_of_le (by decide)
  case index =>
    rintro rfl hidle
    rw [hvalue (.inl hidle)]
    exact BitVec.toNat_setWidth_of_le (by decide)
  case src => rintro rfl; rw [hvalue (.inr rfl)]; exact Params.addrBits_toNat _ _
  case dst => rintro rfl; rw [hvalue (.inr rfl)]; exact Params.addrBits_toNat _ _
  case srclen => rintro rfl; exact hvalue (.inr rfl)
  case dstlen => rintro rfl; exact hvalue (.inr rfl)
  case nsamp => rintro rfl; exact hvalue (.inr rfl)

/-- The fields of `STATUS` (R37), read back from the word for each of their values. -/
theorem Instance.statusWord_fields (d : Instance) :
    d.statusWord.getLsbD 0 = d.busy ∧ d.statusWord.getLsbD 1 = d.ovf ∧ d.statusWord.extractLsb' 4 4 = d.err.code ∧
      d.statusWord.extractLsb' 2 2 = 0#2 ∧ d.statusWord.extractLsb' 8 24 = 0#24 := by
  unfold Instance.statusWord
  generalize d.err.code = e, d.ovf = o, d.busy = b
  revert e o b
  decide

/-- The codes 7 to 15 are never produced (R181). -/
theorem ErrCode.code_le (e : ErrCode) : e.code.toNat ≤ 6 := by cases e <;> decide

/-- Settles O39: the value read is the concatenation of the fields, whatever they hold. -/
theorem statusReads : Obligations.StatusReads := by
  intro s rest h
  obtain ⟨hbusy, hovf, herr, hlow, hhigh⟩ := s.dev.statusWord_fields
  have hread : step s = .next { s with agenda := rest, rdata := s.dev.statusWord } :=
    step_regRead_specified (offset := 0x04#8) h (by decide) (.inr rfl)
  refine ⟨s.dev.statusWord, hread, hbusy, hovf, herr, ?_⟩
  rw [herr]
  refine ⟨?_, ?_, ?_, ?_, ?_, ?_, ?_, s.dev.err.code_le, hlow, hhigh⟩
  all_goals intro he; rw [he]; rfl

/-- Settles O33: `State.reset` gives each register its reset value. -/
theorem resetStateValues : Obligations.ResetStateValues :=
  ⟨rfl, by decide, rfl, rfl, rfl, rfl, rfl, rfl⟩

end Sys2Proof.Machine

/-! PROOFS. Accesses to buffer memory and to the register window: the samples in memory, the host's bytes, and the accesses
that are refused or leave the device stuck (20_memory.md R60-R62, R70, R72). -/
namespace Sys2Proof.Machine

/-! ### Register accesses that are not 32 bits wide or not aligned (R60) -/

theorem regAccessOk_eq_false {offset : BitVec 8} {width : Nat} (h : width ≠ 4 ∨ offset.toNat % 4 ≠ 0) :
    regAccessOk offset width = false := by
  rw [regAccessOk, Bool.and_eq_false_iff, decide_eq_false_iff_not, decide_eq_false_iff_not]
  exact h

/-- Settles O41: the access reaches the selected instance's window, which checks width and alignment before anything
else. -/
theorem registerAccessRefused : Obligations.RegisterAccessRefused := by
  intro s offset width v rest hbad
  have hok := regAccessOk_eq_false hbad
  constructor
  · intro h
    rw [step_cons h]
    refine (hostTurn_regRead_base { s with agenda := rest } offset width).trans ?_
    simp [windowRead, hok]
  · intro h
    rw [step_cons h]
    refine (hostTurn_regWrite_base { s with agenda := rest } offset width v).trans ?_
    simp [windowWrite, hok]

/-! ### Samples (R62) -/

theorem Memory.readSample_eq_append (m : Memory) (a : Nat) : m.readSample a = m.read (a + 1) ++ m.read a := by
  apply BitVec.eq_of_toNat_eq
  have hlow := (m.read a).isLt
  have hhigh := (m.read (a + 1)).isLt
  rw [toNat_concat]
  simp only [Memory.readSample, Memory.readLE, BitVec.toNat_ofNat]
  omega

theorem Memory.samplesAt_getElem? (m : Memory) (b : Nat) {n k : Nat} (hk : k < n) :
    (m.samplesAt b n)[k]? = some (m.readSample (b + 2 * k)) := by
  simp [Memory.samplesAt, hk]

theorem Memory.read_writeSample_low {m : Memory} (hm : m.wf) (a : Nat) (v : Sample) :
    (m.writeSample a v).read a = v.extractLsb' 0 8 := by
  rw [Memory.writeSample, Memory.read_write_ne _ _ (Nat.ne_of_lt a.lt_succ_self), Memory.read_write_self hm]

theorem Memory.read_writeSample_high {m : Memory} (hm : m.wf) (a : Nat) (v : Sample) :
    (m.writeSample a v).read (a + 1) = v.extractLsb' 8 8 :=
  Memory.read_write_self (Memory.write_wf hm _ _) _ _

theorem Memory.readSample_writeSample {m : Memory} (hm : m.wf) (a : Nat) (v : Sample) :
    (m.writeSample a v).readSample a = v := by
  rw [Memory.readSample_eq_append, Memory.read_writeSample_low hm, Memory.read_writeSample_high hm]
  exact (BitVec.extractLsb'_append_extractLsb'_eq_extractLsb' rfl).trans BitVec.extractLsb'_eq_self

/-- Settles O45: a sample read is the concatenation of its two bytes, and a sample written is its two bytes. -/
theorem samplesAreLittleEndian : Obligations.SamplesAreLittleEndian := by
  constructor
  · intro m b n k hk
    rw [Memory.samplesAt_getElem? m b hk, Memory.readSample_eq_append]
  · intro m a v
    refine ⟨m.readSample_eq_append a, fun hm => ⟨?low, ?high, ?back, ?other⟩⟩
    case low => exact Memory.read_writeSample_low hm a v
    case high => exact Memory.read_writeSample_high hm a v
    case back => exact Memory.readSample_writeSample hm a v
    case other => exact fun b hb hb' => m.read_writeSample_ne v hb hb'

/-! ### What the platform admits (R61, R70) -/

theorem Range.has_byte_iff (a b : Nat) : Range.Has ⟨a, 1⟩ b ↔ b = a := by
  simp only [Range.Has]
  omega

/-- A byte none of whose regions is of kind `k`. -/
theorem Params.touches_byte_eq_false {c : Params} {k : RegionKind} {a : Nat}
    (h : ∀ g ∈ c.regions, g.range.Has a → g.kind ≠ k) : c.touches k ⟨a, 1⟩ = false := by
  refine Params.touches_eq_false fun g hg hk b hb hab => ?_
  obtain rfl := (Range.has_byte_iff a b).1 hab
  exact h g hg hb hk

/-- One byte that does not admit its access is enough (R70). -/
theorem Plan.admitted_eq_false {c : Params} {p : Plan} {g : Region} {a : Nat} (hg : g ∈ c.regions) (ha : g.range.Has a)
    (h : (g.kind = .noReads ∧ p.read.Has a) ∨ (g.kind = .noWrites ∧ p.write.Has a)) : p.admitted c = false := by
  rcases h with ⟨hk, hp⟩ | ⟨hk, hp⟩
  · simp [Plan.admitted, Params.touches_eq_true hg hk ha hp]
  · simp [Plan.admitted, Params.touches_eq_true hg hk ha hp]

/-- Where the platform does not admit an access the device has no step (R70, R187). -/
theorem runPlan_not_admitted {p : Plan} {s : State} (hr : s.planRefusal p = none) (ha : p.admitted s.cfg = false)
    (cont : Bool) (loop : Plan → State → State) : runPlan (.ok p) cont loop s = .next s := by
  simp [runPlan, hr, ha]

/-- Settles O22: ENCB and DECB share what they do with a plan that passes the checks. -/
theorem unadmittedAccessLeavesTheDeviceStuck : Obligations.UnadmittedAccessLeavesTheDeviceStuck := by
  intro s p g a cont hr hg ha hk
  have hadm : p.admitted s.cfg = false := Plan.admitted_eq_false hg ha hk
  constructor
  · intro hp
    rw [exec, execEncb, hp]
    exact runPlan_not_admitted hr hadm _ _
  · intro hp
    rw [exec, execDecb, hp]
    exact runPlan_not_admitted hr hadm _ _

/-! ### The host's bytes of buffer memory (R72) -/

theorem State.inRunningRange_eq_false {s : State} {a : Nat}
    (h : ∀ d ∈ s.instances, ∀ p, d.running s.cfg = some p → ¬p.read.Has a ∧ ¬p.write.Has a) :
    s.inRunningRange a = false := by
  rw [← Bool.not_eq_true, State.inRunningRange_iff]
  rintro ⟨d, hd, p, hp, ha⟩
  exact ha.elim (h d hd p hp).1 (h d hd p hp).2

theorem State.inRunningWrite_eq_false {s : State} {a : Nat}
    (h : ∀ d ∈ s.instances, ∀ p, d.running s.cfg = some p → ¬p.write.Has a) : s.inRunningWrite a = false := by
  rw [← Bool.not_eq_true, State.inRunningWrite_iff]
  rintro ⟨d, hd, p, hp, ha⟩
  exact h d hd p hp ha

theorem step_memRead {s : State} {a : Nat} {rest : List Turn} (h : s.agenda = .host (.memRead a) :: rest) :
    step s = hostMemRead a { s with agenda := rest } :=
  step_cons h

theorem step_memWrite {s : State} {a : Nat} {v : Byte} {rest : List Turn}
    (h : s.agenda = .host (.memWrite a v) :: rest) : step s = hostMemWrite a v { s with agenda := rest } :=
  step_cons h

/-- A read in a running command's write range, whatever the platform admits there. -/
theorem hostMemRead_inRunningWrite {a : Nat} {s : State} (h : s.inRunningWrite a = true) :
    hostMemRead a s =
      .next { s with rdata := ((Config.freeWord s.draws).setWidth 8).setWidth 32, draws := s.draws + 1 } :=
  if_pos h

/-- A read elsewhere, of a byte that admits it and has no read side effects. -/
theorem hostMemRead_outside {a : Nat} {s : State} (hw : s.inRunningWrite a = false) (ha : a < 2 ^ s.cfg.addrW)
    (hg : ∀ g ∈ s.cfg.regions, g.range.Has a → g.kind = .noWrites) :
    hostMemRead a s = .next { s with rdata := (s.mem.read a).setWidth 32 } := by
  have hkind (k : RegionKind) (hk : k ≠ .noWrites) : s.cfg.touches k ⟨a, 1⟩ = false :=
    Params.touches_byte_eq_false fun g hgm hga e => hk (e.symm.trans (hg g hgm hga))
  simp [hostMemRead, hw, Params.admitsRead, ha, hkind]

/-- A write into a running command's ranges, whatever the platform admits there. -/
theorem hostMemWrite_inRunningRange {a : Nat} {v : Byte} {s : State} (h : s.inRunningRange a = true) :
    hostMemWrite a v s = .refused .bufferRace :=
  if_pos h

/-- A write elsewhere, to a byte of plain memory. -/
theorem hostMemWrite_outside {a : Nat} {v : Byte} {s : State} (hr : s.inRunningRange a = false)
    (ha : a < 2 ^ s.cfg.addrW) (hg : ∀ g ∈ s.cfg.regions, ¬g.range.Has a) :
    hostMemWrite a v s = .next (s.writeByte a v) := by
  have hkind (k : RegionKind) : s.cfg.touches k ⟨a, 1⟩ = false :=
    Params.touches_byte_eq_false fun g hgm hga => absurd hga (hg g hgm)
  simp [hostMemWrite, hr, Params.admitsWrite, ha, hkind]

/-- Settles O43: the running ranges are looked at before what the platform admits. -/
theorem hostWriteIntoRunningBufferRefused : Obligations.HostWriteIntoRunningBufferRefused := by
  intro s a v rest d p h hd hp ha
  rw [step_memWrite h]
  exact hostMemWrite_inRunningRange ((State.inRunningRange_iff _ a).2 ⟨d, hd, p, hp, ha⟩)

theorem step_memRead_outside {s : State} {a : Nat} {rest : List Turn} (h : s.agenda = .host (.memRead a) :: rest)
    (ha : a < 2 ^ s.cfg.addrW) (hg : ∀ g ∈ s.cfg.regions, g.range.Has a → g.kind = .noWrites)
    (hw : ∀ d ∈ s.instances, ∀ p, d.running s.cfg = some p → ¬p.write.Has a) :
    step s = .next { s with agenda := rest, rdata := (s.mem.read a).setWidth 32 } := by
  rw [step_memRead h]
  exact hostMemRead_outside (State.inRunningWrite_eq_false hw) ha hg

theorem step_memWrite_outside {s : State} {a : Nat} {v : Byte} {rest : List Turn}
    (h : s.agenda = .host (.memWrite a v) :: rest) (ha : a < 2 ^ s.cfg.addrW)
    (hg : ∀ g ∈ s.cfg.regions, ¬g.range.Has a)
    (hr : ∀ d ∈ s.instances, ∀ p, d.running s.cfg = some p → ¬p.read.Has a ∧ ¬p.write.Has a) :
    step s = .next (State.writeByte { s with agenda := rest } a v) := by
  rw [step_memWrite h]
  exact hostMemWrite_outside (State.inRunningRange_eq_false hr) ha hg

/-- Settles O56: a read changes only the value read and, where the value is free, the count of free values. -/
theorem hostMemoryReads : Obligations.HostMemoryReads := by
  intro s a rest h
  refine ⟨step_memRead_outside h, fun d hd p hp ha => ?_⟩
  rw [step_memRead h]
  exact ⟨_, hostMemRead_inRunningWrite ((State.inRunningWrite_iff _ a).2 ⟨d, hd, p, hp, ha⟩), rfl, rfl, rfl, rfl, rfl⟩

/-- Settles O44: the write changes neither the regions nor what runs, so the read that follows is admitted and finds the
byte written. -/
theorem hostMemoryReadsBack : Obligations.HostMemoryReadsBack := by
  intro s a v rest hm h ha hg hr
  have hwrite := step_memWrite_outside h ha hg hr
  have hread := step_memRead_outside (s := State.writeByte { s with agenda := .host (.memRead a) :: rest } a v) rfl ha
    (fun g hgm hga => absurd hga (hg g hgm)) (fun d hd p hp => (hr d hd p hp).2)
  refine ⟨_, core_run_two hwrite hread, ?value, rfl, rfl, fun b hb => Memory.read_write_ne _ v hb⟩
  case value =>
    calc (((s.mem.write a v).read a).setWidth 32).toNat
        = (v.setWidth 32).toNat := by rw [Memory.read_write_self hm]
      _ = v.toNat := BitVec.toNat_setWidth_of_le (by decide)

end Sys2Proof.Machine

/-! PROOFS. The decoder and the encoder (30_encoding.md R81-R87): a word that matches a row decodes to the command whose
operands are the word's fields, and the words of commands are exactly the words that match a row. -/
namespace Sys2Proof

/-- The command that a word of the row `m` spells, its operands the fields of the word (R82). -/
def Mnemonic.commandOf (w : Word) : Mnemonic → Instr
  | .init => .init
  | .ldst => .ldst (immField w) (idxField w)
  | .encs => .encs (immField w)
  | .decs => .decs (codeField w)
  | .encb => .encb (contField w)
  | .decb => .decb (contField w)

@[simp] theorem Mnemonic.mnemonic_commandOf (w : Word) (m : Mnemonic) : (m.commandOf w).mnemonic = m := by
  cases m <;> rfl

/-! ### The decoder by rows -/

theorem decode_row_or_error (w : Word) :
    (∃ m, spells w m = true ∧ decode w = .ok (m.commandOf w)) ∨
      ((∀ m, spells w m = false) ∧ decode w = .error (illegalWord w)) := by
  rcases decode_cases w with h | h | h | h | h | h | h
  · exact .inl ⟨.init, h⟩
  · exact .inl ⟨.ldst, h⟩
  · exact .inl ⟨.encs, h⟩
  · exact .inl ⟨.decs, h⟩
  · exact .inl ⟨.encb, h⟩
  · exact .inl ⟨.decb, h⟩
  · exact .inr h

theorem decode_of_spells {w : Word} {m : Mnemonic} (h : spells w m = true) : decode w = .ok (m.commandOf w) := by
  rcases decode_row_or_error w with ⟨n, hn, hd⟩ | ⟨hnone, -⟩
  · rwa [spells_unique h hn]
  · simp [hnone m] at h

theorem spells_of_decode {w : Word} {i : Instr} (h : decode w = .ok i) :
    spells w i.mnemonic = true ∧ i = i.mnemonic.commandOf w := by
  rcases decode_row_or_error w with ⟨n, hn, hd⟩ | ⟨-, hd⟩
  · obtain rfl : n.commandOf w = i := Except.ok.inj (hd.symm.trans h)
    rw [Mnemonic.mnemonic_commandOf]
    exact ⟨hn, rfl⟩
  · cases hd.symm.trans h

theorem spells_iff_decode (w : Word) (m : Mnemonic) : spells w m = true ↔ decode w = .ok (m.commandOf w) := by
  refine ⟨decode_of_spells, fun h => ?_⟩
  have hm := (spells_of_decode h).1
  rwa [Mnemonic.mnemonic_commandOf] at hm

theorem decode_of_no_row {w : Word} (h : ∀ m, spells w m = false) : decode w = .error (illegalWord w) := by
  rcases decode_row_or_error w with ⟨m, hm, -⟩ | ⟨-, hd⟩
  · simp [h m] at hm
  · exact hd

/-! ### From the command to its word and back -/

theorem spells_encode (i : Instr) : spells (encode i) i.mnemonic = true :=
  have matchesOwnRow : Laws.Spelling.Statement i :=
    match i with
    | .init => Laws.Spelling.init
    | .ldst p k => Laws.Spelling.ldst p k
    | .encs x => Laws.Spelling.encs x
    | .decs c => Laws.Spelling.decs c
    | .encb cont => Laws.Spelling.encb cont
    | .decb cont => Laws.Spelling.decb cont
  (matchesOwnRow i.mnemonic).2 rfl

/-- The fields of a command's word are its operands. -/
theorem commandOf_encode (i : Instr) : i.mnemonic.commandOf (encode i) = i := by
  cases i with
  | init => rfl
  | ldst p k =>
    have himm : immField (encode (.ldst p k)) = p := by
      apply BitVec.eq_of_toNat_eq
      rw [immField_toNat, encode_ldst_toNat]
      omega
    have hidx : idxField (encode (.ldst p k)) = k := by
      apply BitVec.eq_of_toNat_eq
      rw [idxField_toNat, encode_ldst_toNat]
      omega
    simp only [Instr.mnemonic, Mnemonic.commandOf, himm, hidx]
  | encs x =>
    have himm : immField (encode (.encs x)) = x := by
      apply BitVec.eq_of_toNat_eq
      rw [immField_toNat, encode_encs_toNat]
      omega
    simp only [Instr.mnemonic, Mnemonic.commandOf, himm]
  | decs c =>
    have hcode : codeField (encode (.decs c)) = c := by
      apply BitVec.eq_of_toNat_eq
      rw [codeField_toNat, encode_decs_toNat]
      omega
    simp only [Instr.mnemonic, Mnemonic.commandOf, hcode]
  | encb cont => cases cont <;> rfl
  | decb cont => cases cont <;> rfl

/-- Settles O1: the word of a command matches the command's own row, and its fields are the command's operands. -/
theorem decodeOfEncode : Obligations.DecodeOfEncode := by
  intro i
  rw [decode_of_spells (spells_encode i), commandOf_encode]

theorem decode_eq_of_encode {w : Word} {i : Instr} (h : encode i = w) : decode w = .ok i := by
  rw [← h, decodeOfEncode i]

theorem contField_toNat (w : Word) : (contField w).toNat = w.toNat / 16 % 2 := by
  unfold contField
  rw [BitVec.getLsbD, Nat.toNat_testBit]

/-- A word that matches a row is the word of the command it spells: the mask fixes every bit outside the fields. -/
theorem encode_commandOf {w : Word} {m : Mnemonic} (h : spells w m = true) : encode (m.commandOf w) = w := by
  have fixed := field_of_masked ((Laws.Spelling.spells_iff w m).1 h)
  apply BitVec.eq_of_toNat_eq
  cases m with
  | init =>
    have all : w.toNat / 2 ^ 0 % 2 ^ 32 = 1 := fixed 0 32 rfl
    show 1 = w.toNat
    omega
  | ldst =>
    have low : w.toNat / 2 ^ 0 % 2 ^ 8 = 2 := fixed 0 8 rfl
    have bit15 : w.toNat / 2 ^ 15 % 2 ^ 1 = 0 := fixed 15 1 rfl
    rw [Mnemonic.commandOf, encode_ldst_toNat, immField_toNat, idxField_toNat]
    omega
  | encs =>
    have low : w.toNat / 2 ^ 0 % 2 ^ 16 = 3 := fixed 0 16 rfl
    rw [Mnemonic.commandOf, encode_encs_toNat, immField_toNat]
    omega
  | decs =>
    have low : w.toNat / 2 ^ 0 % 2 ^ 8 = 4 := fixed 0 8 rfl
    have high : w.toNat / 2 ^ 12 % 2 ^ 20 = 0 := fixed 12 20 rfl
    rw [Mnemonic.commandOf, encode_decs_toNat, codeField_toNat]
    omega
  | encb =>
    have low : w.toNat / 2 ^ 0 % 2 ^ 4 = 5 := fixed 0 4 rfl
    have high : w.toNat / 2 ^ 5 % 2 ^ 27 = 0 := fixed 5 27 rfl
    rw [Mnemonic.commandOf, encode_encb_toNat, contField_toNat]
    omega
  | decb =>
    have low : w.toNat / 2 ^ 0 % 2 ^ 4 = 6 := fixed 0 4 rfl
    have high : w.toNat / 2 ^ 5 % 2 ^ 27 = 0 := fixed 5 27 rfl
    rw [Mnemonic.commandOf, encode_decb_toNat, contField_toNat]
    omega

/-- Settles O2: the word matches the row of the command it decodes to, whose mask and fields cover all its bits. -/
theorem encodeOfDecode : Obligations.EncodeOfDecode := by
  intro w i h
  obtain ⟨hspells, hcommand⟩ := spells_of_decode h
  rw [hcommand]
  exact encode_commandOf hspells

/-- Settles O3: the mask and match of a row are those of `spells`, which the decoder goes by. -/
theorem wordSpellsItsRow : Obligations.WordSpellsItsRow := by
  intro w
  have row (m : Mnemonic) : w &&& m.row.mask = m.row.pattern ↔ decode w = .ok (m.commandOf w) :=
    (Laws.Spelling.spells_iff w m).symm.trans (spells_iff_decode w m)
  exact ⟨row .init, row .ldst, row .encs, row .decs, row .encb, row .decb⟩

/-! ### Illegal words (R84) -/

/-- The `OP` of every row is 0x1 to 0x6 (R81). -/
theorem op_toNat_bounds (m : Mnemonic) : 1 ≤ (Laws.Spelling.op m).toNat ∧ (Laws.Spelling.op m).toNat ≤ 6 := by
  cases m <;> decide

theorem decode_illegalOp {w : Word} (h : (opField w).toNat = 0 ∨ 7 ≤ (opField w).toNat) :
    decode w = .error (.illegalOp (opField w)) := by
  have hop : ¬(1 ≤ (opField w).toNat ∧ (opField w).toNat ≤ 6) := by omega
  have hnone (m : Mnemonic) : spells w m = false := by
    rw [← Bool.not_eq_true]
    intro hm
    rw [Laws.Spelling.opField_of_spells hm] at hop
    exact hop (op_toNat_bounds m)
  rw [decode_of_no_row hnone, illegalWord, if_neg hop]

/-- A word with a fixed bit set whose `OP` is that of a row (R84). -/
theorem decode_fixedBitSet {w : Word} (hop : 1 ≤ (opField w).toNat ∧ (opField w).toNat ≤ 6)
    (hnone : ∀ m, spells w m = false) : decode w = .error (.fixedBitSet (opField w)) := by
  rw [decode_of_no_row hnone, illegalWord, if_pos hop]

/-- Settles O5: the first six are the words of their commands; the others match no row, one by its `OP` and one by its
bit 5. -/
theorem wordsOfTheTestVectors : Obligations.WordsOfTheTestVectors :=
  ⟨decode_eq_of_encode (by decide), decode_eq_of_encode (by decide), decode_eq_of_encode (by decide),
    decode_eq_of_encode (by decide), decode_eq_of_encode (by decide), decode_eq_of_encode (by decide),
    decode_illegalOp (.inl (by decide)), decode_fixedBitSet (by decide) (by intro m; cases m <;> decide)⟩

/-! ### The assembler (R87) -/

theorem inRange_iff {lo hi v : Int} : inRange lo hi v = true ↔ lo ≤ v ∧ v ≤ hi := by
  simp [inRange]

theorem AsmLine.wellFormed_ldst_iff {p k : Int} :
    (AsmLine.ldst p k).wellFormed = true ↔ (-32768 ≤ p ∧ p ≤ 32767) ∧ 0 ≤ k ∧ k ≤ 127 := by
  rw [AsmLine.wellFormed, Bool.and_eq_true, inRange_iff, inRange_iff]

theorem AsmLine.wellFormed_encs_iff {x : Int} : (AsmLine.encs x).wellFormed = true ↔ -32768 ≤ x ∧ x ≤ 32767 :=
  inRange_iff

theorem AsmLine.wellFormed_decs_iff {c : Int} : (AsmLine.decs c).wellFormed = true ↔ 0 ≤ c ∧ c ≤ 15 :=
  inRange_iff

theorem assemble_of_wellFormed {l : AsmLine} (h : l.wellFormed = true) : assemble l = some (encode l.toInstr) :=
  if_pos h

theorem assemble_eq_none {l : AsmLine} (h : ¬l.wellFormed = true) : assemble l = none :=
  if_neg h

theorem encode_toInstr_ldst_toNat (p k : Int) :
    ((encode (AsmLine.ldst p k).toInstr).toNat : Int) = (p % 65536) * 65536 + (k % 128) * 256 + 2 := by
  rw [AsmLine.toInstr, encode_ldst_toNat, BitVec.toNat_ofInt, BitVec.toNat_ofInt]
  omega

theorem encode_toInstr_encs_toNat (x : Int) :
    ((encode (AsmLine.encs x).toInstr).toNat : Int) = (x % 65536) * 65536 + 3 := by
  rw [AsmLine.toInstr, encode_encs_toNat, BitVec.toNat_ofInt]
  omega

theorem encode_toInstr_decs_toNat (c : Int) :
    ((encode (AsmLine.decs c).toInstr).toNat : Int) = (c % 16) * 256 + 4 := by
  rw [AsmLine.toInstr, encode_decs_toNat, BitVec.toNat_ofInt]
  omega

/-- Settles O6: a line is rejected exactly when an operand is out of range, and the word of one that is not is the sum
of its operands, reduced to their fields, each at its field's place. -/
theorem assemblerWords : Obligations.AssemblerWords := by
  refine ⟨?ldst, ?encs, ?decs, rfl, rfl, rfl, rfl, rfl, ?noLdst, ?noEncs, ?noDecs⟩
  case ldst =>
    intro p k hp hp' hk hk'
    refine ⟨_, assemble_of_wellFormed (AsmLine.wellFormed_ldst_iff.2 ⟨⟨hp, hp'⟩, hk, hk'⟩), ?_⟩
    rw [encode_toInstr_ldst_toNat, Int.emod_eq_of_lt hk (by omega)]
  case encs =>
    intro x hx hx'
    exact ⟨_, assemble_of_wellFormed (AsmLine.wellFormed_encs_iff.2 ⟨hx, hx'⟩), encode_toInstr_encs_toNat x⟩
  case decs =>
    intro c hc hc'
    refine ⟨_, assemble_of_wellFormed (AsmLine.wellFormed_decs_iff.2 ⟨hc, hc'⟩), ?_⟩
    rw [encode_toInstr_decs_toNat, Int.emod_eq_of_lt hc (by omega)]
  case noLdst =>
    intro p k h
    exact assemble_eq_none fun hwf => by have := AsmLine.wellFormed_ldst_iff.1 hwf; omega
  case noEncs =>
    intro x h
    exact assemble_eq_none fun hwf => by have := AsmLine.wellFormed_encs_iff.1 hwf; omega
  case noDecs =>
    intro c h
    exact assemble_eq_none fun hwf => by have := AsmLine.wellFormed_decs_iff.1 hwf; omega

end Sys2Proof

/-! PROOFS. The device step by the latched word (30_encoding.md R84; 70_reset_and_hazards.md R217). -/
namespace Sys2Proof.Machine

theorem State.fail_failed (s : State) (e : ErrCode) : s.Failed (s.fail e) e :=
  ⟨rfl, rfl, rfl, rfl, s.fail_sameAround e, rfl⟩

/-- A turn of the selected device, busy. -/
theorem step_busy_device {s : State} {rest : List Turn} (h : s.agenda = .device 0 :: rest) (hbusy : s.dev.busy = true) :
    step s = deviceStep { s with agenda := rest } :=
  (step_cons h).trans (if_pos hbusy)

theorem deviceStep_of_decode {s : State} {i : Instr} (h : decode s.dev.hid.cmdl = .ok i) : deviceStep s = exec i s := by
  rw [deviceStep, h]

theorem deviceStep_of_no_row {s : State} (h : ∀ m, spells s.dev.hid.cmdl m = false) :
    deviceStep s = .next (s.fail .illegal) := by
  rw [deviceStep, decode_of_no_row h]

theorem exec_ldst_badState (p : Sample) {k : StepIndex} (h : 88 < k.toNat) (s : State) :
    exec (.ldst p k) s = .next (s.fail .badState) :=
  if_pos h

/-- Settles O4: every row fixes `OP` to one of 0x1 to 0x6; a latched word of no row fails in the device step, and one of
LDST's row in the command itself. -/
theorem illegalWordFails : Obligations.IllegalWordFails := by
  refine ⟨fun w => decode_illegalOp, ?noRow, ?badIndex⟩
  case noRow =>
    intro s rest h hbusy hinit hldst hencs hdecs hencb hdecb
    have hnone (m : Mnemonic) : spells s.dev.hid.cmdl m = false := by
      rw [← Bool.not_eq_true, Laws.Spelling.spells_iff]
      cases m with
      | init => exact hinit
      | ldst => exact hldst
      | encs => exact hencs
      | decs => exact hdecs
      | encb => exact hencb
      | decb => exact hdecb
    exact ⟨_, (step_busy_device h hbusy).trans (deviceStep_of_no_row hnone), State.fail_failed _ _⟩
  case badIndex =>
    intro s w rest h hbusy hw hrow hk
    have hdecode : decode s.dev.hid.cmdl = .ok (Mnemonic.ldst.commandOf w) := by
      rw [hw]
      exact decode_of_spells ((Laws.Spelling.spells_iff w .ldst).2 hrow)
    refine ⟨_, ?_, State.fail_failed { s with agenda := rest } .badState⟩
    calc step s = deviceStep { s with agenda := rest } := step_busy_device h hbusy
      _ = exec (Mnemonic.ldst.commandOf w) { s with agenda := rest } := deviceStep_of_decode hdecode
      _ = .next (State.fail { s with agenda := rest } .badState) := exec_ldst_badState _ hk _

end Sys2Proof.Machine

/-! PROOFS. The per-sample arithmetic (40_codec_core.md R101-R108): the bits of `Quantize`, the sum of `Reconstruct`,
the clamps of `Adapt`, the ranges of the values between them, and the tracking law. -/
namespace Sys2Proof.Machine

/-! ### `Quantize` (R102) -/

@[simp] theorem quantBit_fst (d t : Nat) : (quantBit d t).1 = decide (t ≤ d) := by
  unfold quantBit
  split <;> simp_all

@[simp] theorem quantBit_snd (d t : Nat) : (quantBit d t).2 = if t ≤ d then d - t else d := by
  unfold quantBit
  split <;> rfl

/-- The magnitude, `d1` and `d2` standing for what the first and the second test leave of the difference. -/
theorem quantMagnitude_eq {d d1 d2 step : Nat} (hd1 : d1 = if step ≤ d then d - step else d)
    (hd2 : d2 = if step / 2 ≤ d1 then d1 - step / 2 else d1) :
    quantMagnitude d step =
      BitVec.ofBool (decide (step ≤ d)) ++
        (BitVec.ofBool (decide (step / 2 ≤ d1)) ++ BitVec.ofBool (decide (step / 2 / 2 ≤ d2))) := by
  subst hd1 hd2
  simp only [quantMagnitude, quantBit_fst, quantBit_snd, shiftRight_one]

theorem getLsbD_append_ofBool (b3 b2 b1 b0 : Bool) (code : Code)
    (h : code = BitVec.ofBool b3 ++ (BitVec.ofBool b2 ++ (BitVec.ofBool b1 ++ BitVec.ofBool b0))) :
    code.getLsbD 3 = b3 ∧ code.getLsbD 2 = b2 ∧ code.getLsbD 1 = b1 ∧ code.getLsbD 0 = b0 := by
  subst h
  revert b3 b2 b1 b0
  decide

/-- Settles O24: the code is the concatenation of four bits, each the outcome of one test. -/
theorem quantizeBits : Obligations.QuantizeBits := by
  rintro s p step d d1 d2 rfl hd1 hd2
  have bits : quantize s p step = _ := congrArg (BitVec.ofBool (decide (s - p < 0)) ++ ·) (quantMagnitude_eq hd1 hd2)
  obtain ⟨b3, b2, b1, b0⟩ := getLsbD_append_ofBool _ _ _ _ _ bits
  rw [b3, b2, b1, b0]
  exact ⟨decide_eq_true_iff, decide_eq_true_iff, decide_eq_true_iff, decide_eq_true_iff⟩

theorem toNat_ofBool_decide (P : Prop) [Decidable P] : (BitVec.ofBool (decide P)).toNat = if P then 1 else 0 := by
  split <;> simp [*]

/-- The magnitude as a number: its three bits are worth 4, 2 and 1. -/
theorem quantize_toNat_mod_eight {s p : Int} {step d d1 d2 : Nat} (hd : d = (s - p).natAbs)
    (hd1 : d1 = if step ≤ d then d - step else d) (hd2 : d2 = if step / 2 ≤ d1 then d1 - step / 2 else d1) :
    (quantize s p step).toNat % 8 =
      (if step ≤ d then 4 else 0) + (if step / 2 ≤ d1 then 2 else 0) + if step / 2 / 2 ≤ d2 then 1 else 0 := by
  rw [quantize, ← hd, quantMagnitude_eq hd1 hd2]
  simp only [toNat_concat, toNat_ofBool_decide]
  split_ifs <;> omega

/-- Settles O25: what each of the three tests leaves of the difference follows from its outcome. -/
theorem quantizeMagnitudes : Obligations.QuantizeMagnitudes := by
  constructor
  · intro s p step
    rw [quantize_toNat_mod_eight rfl rfl rfl]
    split_ifs <;> omega
  · intro s p d m hd hm
    rw [quantize_toNat_mod_eight hd rfl rfl] at hm
    split_ifs at hm <;> omega

/-! ### `Reconstruct` (R104) -/

theorem ite_getLsbD_eq_mul {w : Nat} (m : BitVec w) (i x : Nat) :
    (if m.getLsbD i then x else 0) = m.toNat / 2 ^ i % 2 * x := by
  rw [BitVec.getLsbD, Nat.testBit_eq_decide_div_mod_eq]
  rcases Nat.mod_two_eq_zero_or_one (m.toNat / 2 ^ i) with h | h <;> simp [h]

/-- Settles O26: each bit of the magnitude, as a number, multiplies the shifted step it selects. -/
theorem reconstructSum : Obligations.ReconstructSum := by
  intro step m
  have top : m.toNat / 4 % 2 = m.toNat / 4 := by omega
  rw [reconstruct, ite_getLsbD_eq_mul, ite_getLsbD_eq_mul, ite_getLsbD_eq_mul]
  simp [Nat.shiftRight_eq_div_pow, top]

theorem reconstruct_le (step : Nat) (m : BitVec 3) :
    reconstruct step m ≤ step / 8 + step + step / 2 + step / 4 := by
  simp only [reconstruct, Nat.shiftRight_eq_div_pow]
  split_ifs <;> omega

/-! ### `Adapt` (R106) -/

theorem Params.step_of_getElem? {c : Params} {k : StepIndex} {v : Nat} (h : c.stepTable[k.toNat]? = some v) :
    c.step k = v := by
  rw [Params.step, h]

theorem Params.adjust_of_getElem? {c : Params} {code : Code} {v : Int} (h : c.indexTable[code.toNat]? = some v) :
    c.adjust code = v := by
  rw [Params.adjust, h]

theorem adapt_pred_toInt (c : Params) (a : Adaptation) (code : Code) :
    (adapt c a code).pred.toInt =
      clamp (moved a.pred.toInt code (reconstruct (c.step a.index) (codeMagnitude code))) (-32768) 32767 :=
  toInt_ofInt_pred (le_clamp (by decide)) (clamp_le (by decide))

theorem adapt_index_toNat (c : Params) (a : Adaptation) (code : Code) :
    ((adapt c a code).index.toNat : Int) = clamp (a.index.toNat + c.adjust code) 0 88 :=
  toNat_ofInt_index (le_clamp (by decide)) (clamp_le (by decide))

/-- Settles O27: the clamped values fit their registers, so nothing wraps. -/
theorem adaptRule : Obligations.AdaptRule := by
  rintro c a code step k v p hstep hk rfl rfl
  rw [adapt_pred_toInt, adapt_index_toNat, clamp_eq_max_min (by decide), clamp_eq_max_min (by decide),
    Params.step_of_getElem? hstep, Params.adjust_of_getElem? hk]
  exact ⟨rfl, rfl⟩

/-! ### The ranges of the intermediate values with the default tables (R101-R107) -/

/-- The last entry of an increasing table is its greatest; that of the default table is 32767. -/
theorem le_32767_of_mem_stepTable {v : Nat} (hv : v ∈ Config.stepTable) : v ≤ 32767 := by
  have split : Config.stepTable = Config.stepTable.dropLast ++ [32767] := by decide
  have sorted := stepTable_pairwise_lt
  rw [split] at sorted hv
  rcases List.mem_append.1 hv with hv | hv
  · obtain ⟨-, -, below⟩ := List.pairwise_append.1 sorted
    exact Nat.le_of_lt (below v hv 32767 List.mem_cons_self)
  · exact Nat.le_of_eq (List.mem_singleton.1 hv)

theorem default_step_mem {k : StepIndex} (hk : k.toNat ≤ 88) : Params.default.step k ∈ Config.stepTable := by
  have hlen : k.toNat < Config.stepTable.length := Nat.lt_succ_of_le hk
  rw [Params.step_of_getElem? (c := Params.default) (List.getElem?_eq_getElem hlen)]
  exact List.getElem_mem hlen

theorem default_adjust_bounds (code : Code) : -1 ≤ Params.default.adjust code ∧ Params.default.adjust code ≤ 8 := by
  revert code
  decide

/-- Settles O28: `vpdiff` is at most that of the greatest step with every bit of the magnitude set, and the least step
is 7. -/
theorem intermediateRanges : Obligations.IntermediateRanges := by
  refine ⟨fun k hk => ?_, by decide, fun s p k code v hk hv => ?_⟩
  · have := seven_le_of_mem_stepTable (default_step_mem hk)
    omega
  · have hstep := le_32767_of_mem_stepTable (default_step_mem hk)
    have hvp := reconstruct_le (Params.default.step k) (code.extractLsb' 0 3)
    have hadj := default_adjust_bounds code
    have hs := BitVec.le_toInt s
    have hs' := BitVec.toInt_lt (x := s)
    have hp := BitVec.le_toInt p
    have hp' := BitVec.toInt_lt (x := p)
    omega

/-! ### The tracking law (R106, R108) -/

theorem decodeStates_encodeCodes (c : Params) (a : Adaptation) (xs : List Sample) :
    decodeStates c a (encodeCodes c a xs) = encodeStates c a xs := by
  induction xs generalizing a with
  | nil => rfl
  | cons x xs ih => exact congrArg (_ :: ·) (ih _)

theorem decodeEnd_encodeCodes (c : Params) (a : Adaptation) (xs : List Sample) :
    decodeEnd c a (encodeCodes c a xs) = encodeEnd c a xs := by
  induction xs generalizing a with
  | nil => rfl
  | cons x xs ih => exact ih _

/-- Settles O29: encoder and decoder apply the same `Adapt` to the same code. -/
theorem trackingLaw : Obligations.TrackingLaw :=
  ⟨fun c a xs => ⟨decodeStates_encodeCodes c a xs, decodeEnd_encodeCodes c a xs⟩, by decide, by decide⟩

end Sys2Proof.Machine

/-! PROOFS. The commands on one sample and on the Adaptation State (40_codec_core.md R120-R123): which words of their
`OP` spell them, and what they leave. -/
namespace Sys2Proof

/-! ### Words with the `OP` of a row (R84) -/

/-- A word with the `OP` of a row matches that row or none. -/
theorem decode_of_opField {w : Word} {m : Mnemonic} (hop : opField w = Laws.Spelling.op m) :
    decode w = if spells w m then .ok (m.commandOf w) else .error (.fixedBitSet (Laws.Spelling.op m)) := by
  split
  · exact decode_of_spells ‹_›
  · rename_i hm
    have hnone (n : Mnemonic) : spells w n = false := by
      rw [← Bool.not_eq_true]
      intro hn
      rw [Laws.Spelling.op_injective ((Laws.Spelling.opField_of_spells hn).symm.trans hop)] at hn
      exact hm hn
    have hbounds := hop ▸ op_toNat_bounds m
    rw [decode_fixedBitSet hbounds hnone, hop]

theorem spells_iff_encode (w : Word) (m : Mnemonic) : spells w m = true ↔ encode (m.commandOf w) = w := by
  refine ⟨encode_commandOf, fun h => ?_⟩
  have := spells_encode (m.commandOf w)
  rwa [h, Mnemonic.mnemonic_commandOf] at this

/-- A word with the `OP` of a row, where `fixed` says of the row's other fixed bits that they have their values. -/
theorem decode_eq_ite {w : Word} {m : Mnemonic} {fixed : Prop} [Decidable fixed]
    (hop : opField w = Laws.Spelling.op m) (h : encode (m.commandOf w) = w ↔ fixed) :
    decode w = if fixed then .ok (m.commandOf w) else .error (.fixedBitSet (Laws.Spelling.op m)) := by
  rw [decode_of_opField hop]
  exact if_congr ((spells_iff_encode w m).trans h) rfl rfl

theorem extractLsb'_eq_iff (w : Word) (start len : Nat) (v : BitVec len) :
    w.extractLsb' start len = v ↔ w.toNat / 2 ^ start % 2 ^ len = v.toNat := by
  rw [← BitVec.toNat_inj, BitVec.extractLsb'_toNat, Nat.shiftRight_eq_div_pow]

theorem getLsbD_eq_false_iff (w : Word) (i : Nat) : w.getLsbD i = false ↔ w.toNat / 2 ^ i % 2 = 0 := by
  rw [BitVec.getLsbD, Nat.testBit_eq_decide_div_mod_eq, decide_eq_false_iff_not]
  omega

end Sys2Proof

namespace Sys2Proof.Machine

/-! ### INIT (R120) -/

theorem State.complete_setAdp_completed (s : State) (a : Adaptation) (v : Word) :
    s.Completed ((s.setAdp a).complete v) a v :=
  ⟨rfl, rfl, rfl, rfl, (OnlyStreams.setAdp s a).complete_sameAround v⟩

/-- Settles O12: INIT's row fixes every bit of the word. -/
theorem initLoadsTheFreshState : Obligations.InitLoadsTheFreshState :=
  ⟨fun _ hop => decode_eq_ite (m := .init) hop eq_comm,
    fun s => ⟨_, rfl, s.complete_setAdp_completed Adaptation.fresh 0, rfl⟩⟩

/-! ### LDST (R121) -/

theorem exec_ldst_complete (p : Sample) {k : StepIndex} (h : k.toNat ≤ 88) (s : State) :
    exec (.ldst p k) s = .next ((s.setAdp ⟨p, k⟩).complete 0) :=
  if_neg (Nat.not_lt.2 h)

/-- Settles O13: the bits LDST's row fixes beside `OP` are bit 15 and bits [7:4]. -/
theorem ldstLoadsOrFails : Obligations.LdstLoadsOrFails := by
  refine ⟨fun w hop => decode_eq_ite (m := .ldst) hop ?fixed, fun s p k => ⟨fun h => ?loads, fun h => ?fails⟩⟩
  case fixed =>
    rw [extractLsb'_eq_iff] at hop
    rw [getLsbD_eq_false_iff, extractLsb'_eq_iff, ← BitVec.toNat_inj, Mnemonic.commandOf, encode_ldst_toNat,
      immField_toNat, idxField_toNat]
    simp only [BitVec.toNat_ofNat] at hop ⊢
    omega
  case loads => exact ⟨_, exec_ldst_complete p h s, s.complete_setAdp_completed ⟨p, k⟩ 0, rfl⟩
  case fails => exact ⟨_, exec_ldst_badState p h s, s.fail_failed .badState⟩

/-! ### ENCS (R122) -/

/-- Settles O14: the bits ENCS's row fixes beside `OP` are bits [15:4]. -/
theorem encsEncodesOneSample : Obligations.EncsEncodesOneSample := by
  refine ⟨fun w hop => decode_eq_ite (m := .encs) hop ?fixed, ?encodes⟩
  case fixed =>
    rw [extractLsb'_eq_iff] at hop
    rw [extractLsb'_eq_iff, ← BitVec.toNat_inj, Mnemonic.commandOf, encode_encs_toNat, immField_toNat]
    simp only [BitVec.toNat_ofNat] at hop ⊢
    omega
  case encodes =>
    rintro s x code rfl
    rw [BitVec.ofNat_toNat]
    exact ⟨_, rfl, s.complete_setAdp_completed _ _, rfl⟩

/-! ### DECS (R123) -/

/-- Settles O15: the bits DECS's row fixes beside `OP` are bits [31:12] and [7:4]. -/
theorem decsDecodesOneCode : Obligations.DecsDecodesOneCode := by
  refine ⟨fun w hop => decode_eq_ite (m := .decs) hop ?fixed, fun s c => ?decodes⟩
  case fixed =>
    rw [extractLsb'_eq_iff] at hop
    rw [extractLsb'_eq_iff, extractLsb'_eq_iff, ← BitVec.toNat_inj, Mnemonic.commandOf, encode_decs_toNat,
      codeField_toNat]
    simp only [BitVec.toNat_ofNat] at hop ⊢
    omega
  case decodes => exact ⟨_, rfl, s.complete_setAdp_completed _ _, rfl⟩

end Sys2Proof.Machine

/-! PROOFS. The sample loops of ENCB and DECB as the streams of 40_codec_core.md R108 (41_buffer_ops.md R140-R165), and
DECB of ENCB's output. -/
namespace Sys2Proof.Machine

/-! ### The rest of a buffer, from a sample on -/

/-- The `n` samples of the PCM buffer at `base` from sample `pos` on. -/
def Memory.samplesFrom (m : Memory) (base pos n : Nat) : List Sample :=
  (List.range' pos n).map fun k => m.readSample (base + 2 * k)

/-- The `n` codes of the ADPCM buffer at `base` from code `pos` on. -/
def Memory.codesFrom (m : Memory) (base pos n : Nat) : List Code :=
  (List.range' pos n).map fun k => codeOfByte k (m.read (base + k / 2))

theorem Memory.samplesAt_eq_samplesFrom (m : Memory) (base n : Nat) : m.samplesAt base n = m.samplesFrom base 0 n := by
  rw [Memory.samplesAt, List.range_eq_range', Memory.samplesFrom]

theorem Memory.codesAt_eq_codesFrom (m : Memory) (base n : Nat) : m.codesAt base n = m.codesFrom base 0 n := by
  simp only [Memory.codesAt, List.range_eq_range', Memory.codesFrom, shiftRight_one]

theorem Memory.samplesFrom_succ (m : Memory) (base pos n : Nat) :
    m.samplesFrom base pos (n + 1) = m.readSample (base + 2 * pos) :: m.samplesFrom base (pos + 1) n :=
  rfl

theorem Memory.codesFrom_succ (m : Memory) (base pos n : Nat) :
    m.codesFrom base pos (n + 1) = codeOfByte pos (m.read (base + pos / 2)) :: m.codesFrom base (pos + 1) n :=
  rfl

theorem Memory.readSample_congr {m m' : Memory} {a : Nat} (h0 : m.read a = m'.read a)
    (h1 : m.read (a + 1) = m'.read (a + 1)) : m.readSample a = m'.readSample a := by
  rw [Memory.readSample_eq_append, Memory.readSample_eq_append, h0, h1]

theorem Memory.samplesFrom_congr {m m' : Memory} {base pos n : Nat}
    (h : ∀ a, base ≤ a → a < base + 2 * (pos + n) → m.read a = m'.read a) :
    m.samplesFrom base pos n = m'.samplesFrom base pos n := by
  refine List.map_congr_left fun k hk => ?_
  have := List.mem_range'_1.1 hk
  exact Memory.readSample_congr (h _ (by omega) (by omega)) (h _ (by omega) (by omega))

theorem Memory.codesFrom_congr {m m' : Memory} {base pos n : Nat}
    (h : ∀ a, base ≤ a → a < base + (pos + n + 1) / 2 → m.read a = m'.read a) :
    m.codesFrom base pos n = m'.codesFrom base pos n := by
  refine List.map_congr_left fun k hk => ?_
  have := List.mem_range'_1.1 hk
  rw [h _ (by omega) (by omega)]

/-! ### The nibbles of a byte (20_memory.md R63) -/

theorem codeOfByte_even {i : Nat} (h : i % 2 = 0) (x y : Code) : codeOfByte i (x ++ y) = x := by
  rw [codeOfByte, if_pos h, highNibble]
  exact BitVec.extractLsb'_append_eq_left

theorem codeOfByte_odd {i : Nat} (h : i % 2 = 1) (x y : Code) : codeOfByte i (x ++ y) = y := by
  rw [codeOfByte, if_neg (by omega), lowNibble]
  exact BitVec.extractLsb'_append_eq_right

/-! ### ENCB (R150) -/

/-- The plan of an ENCB whose source and destination do not overlap. -/
structure Plan.Encodes (p : Plan) : Prop where
  read_len : p.read.len = 2 * p.samples
  write_len : p.write.len = (p.samples + 1) / 2
  apart : ∀ a, ¬(p.read.Has a ∧ p.write.Has a)

/-- The code ENCB chooses for sample `pos`. -/
def Plan.codeAt (p : Plan) (pos : Nat) (s : State) : Code :=
  chooseCode s.cfg s.dev.adp (s.mem.readSample (p.read.base + 2 * pos))

theorem encbSample_hold_even {pos : Nat} (h : pos % 2 = 0) (p : Plan) (s : State) :
    (encbSample p pos s).dev.hid.hold = p.codeAt pos s := by
  unfold encbSample packCode
  rw [if_pos h]
  split <;> rfl

theorem encbSample_mem_last {p : Plan} {pos : Nat} (h : pos % 2 = 0) (hlast : pos + 1 = p.samples) (s : State) :
    (encbSample p pos s).mem = s.mem.write (p.write.base + pos / 2) (p.codeAt pos s ++ 0#4) := by
  unfold encbSample packCode
  rw [if_pos h, if_pos hlast, shiftRight_one]
  rfl

theorem encbSample_mem_odd {pos : Nat} (h : pos % 2 = 1) (p : Plan) (s : State) :
    (encbSample p pos s).mem = s.mem.write (p.write.base + pos / 2) (s.dev.hid.hold ++ p.codeAt pos s) := by
  unfold encbSample packCode
  rw [if_neg (by omega), shiftRight_one]
  rfl

theorem encbSample_wf (p : Plan) (pos : Nat) {s : State} (h : s.mem.wf) : (encbSample p pos s).mem.wf :=
  encbLoop_wf p 1 pos s h

theorem encbSample_samplesFrom {p : Plan} (hp : p.Encodes) {pos : Nat} (hpos : pos < p.samples) (s : State)
    {i n : Nat} (hn : i + n ≤ p.samples) :
    (encbSample p pos s).mem.samplesFrom p.read.base i n = s.mem.samplesFrom p.read.base i n := by
  obtain ⟨hr, hw, apart⟩ := hp
  refine Memory.samplesFrom_congr fun a ha ha' => ?_
  have hne := apart a
  unfold Range.Has at hne
  rcases encbSample_mem p pos s with h | ⟨v, h⟩ <;> rw [h]
  exact Memory.read_write_ne _ _ (by omega)

/-- The code of the loop's first sample ends up in its nibble: an odd sample's with the one that waits in `HOLD`, an
even sample's alone if it is the last, and else with the next one's. -/
theorem encbLoop_first_code {p : Plan} {n pos : Nat} {s : State} (hm : s.mem.wf) (hn : pos + (n + 1) = p.samples) :
    codeOfByte pos ((encbLoop p (n + 1) pos s).mem.read (p.write.base + pos / 2)) = p.codeAt pos s := by
  rcases Nat.mod_two_eq_zero_or_one pos with h | h
  · cases n with
    | zero => rw [encbLoop, encbLoop, encbSample_mem_last h hn, Memory.read_write_self hm, codeOfByte_even h]
    | succ n =>
      have hnext : (pos + 1) / 2 = pos / 2 := by omega
      rw [encbLoop, encbLoop, encbLoop_read_outside _ _ _ _ _ (by omega), encbSample_mem_odd (by omega), hnext,
        Memory.read_write_self (encbSample_wf p pos hm), codeOfByte_even h, encbSample_hold_even h]
  · rw [encbLoop, encbLoop_read_outside _ _ _ _ _ (by omega), encbSample_mem_odd h, Memory.read_write_self hm,
      codeOfByte_odd h]

theorem encbLoop_adp {p : Plan} (hp : p.Encodes) {n pos : Nat} {s : State} (hn : pos + n = p.samples) :
    (encbLoop p n pos s).dev.adp = encodeEnd s.cfg s.dev.adp (s.mem.samplesFrom p.read.base pos n) := by
  induction n generalizing pos s with
  | zero => rfl
  | succ n ih =>
    rw [encbLoop, ih (by omega), encbSample_samplesFrom hp (by omega) s (by omega), encbSample_adp,
      (encbSample_onlyStreams p pos s).cfg, Memory.samplesFrom_succ, encodeEnd]

/-- ENCB's loop leaves the encoder's codes in the destination. -/
theorem encbLoop_codesFrom {p : Plan} (hp : p.Encodes) {n pos : Nat} {s : State} (hm : s.mem.wf)
    (hn : pos + n = p.samples) :
    (encbLoop p n pos s).mem.codesFrom p.write.base pos n =
      encodeCodes s.cfg s.dev.adp (s.mem.samplesFrom p.read.base pos n) := by
  induction n generalizing pos s with
  | zero => rfl
  | succ n ih =>
    rw [Memory.codesFrom_succ, encbLoop_first_code hm hn, encbLoop, ih (encbSample_wf p pos hm) (by omega),
      encbSample_samplesFrom hp (by omega) s (by omega), encbSample_adp, (encbSample_onlyStreams p pos s).cfg,
      Memory.samplesFrom_succ, encodeCodes]
    rfl

/-! ### DECB (R160) -/

/-- The plan of a DECB whose source and destination do not overlap. -/
structure Plan.Decodes (p : Plan) : Prop where
  read_len : p.read.len = (p.samples + 1) / 2
  write_len : p.write.len = 2 * p.samples
  apart : ∀ a, ¬(p.read.Has a ∧ p.write.Has a)

/-- Before an odd sample the low nibble of the byte last read waits in `HOLD` (R143). -/
def State.HoldsNibble (s : State) (p : Plan) (pos : Nat) : Prop :=
  pos % 2 = 1 → s.dev.hid.hold = lowNibble (s.mem.read (p.read.base + pos / 2))

theorem unpackCode_fst {p : Plan} {pos : Nat} {s : State} (h : s.HoldsNibble p pos) :
    (unpackCode p pos (s.setPos pos)).1 = codeOfByte pos (s.mem.read (p.read.base + pos / 2)) := by
  unfold unpackCode codeOfByte
  split
  · rw [shiftRight_one]
    rfl
  · exact h (by omega)

theorem decbSample_wf (p : Plan) (pos : Nat) {s : State} (h : s.mem.wf) : (decbSample p pos s).mem.wf :=
  decbLoop_wf p 1 pos s h

theorem decbSample_hold_even {pos : Nat} (h : pos % 2 = 0) (p : Plan) (s : State) :
    (decbSample p pos s).dev.hid.hold = lowNibble (s.mem.read (p.read.base + pos / 2)) := by
  unfold decbSample unpackCode
  rw [if_pos h, shiftRight_one]
  rfl

theorem decbSample_read_source {p : Plan} (hp : p.Decodes) {pos a : Nat} (hpos : pos < p.samples) (s : State)
    (ha : p.read.base ≤ a) (ha' : a < p.read.base + (p.samples + 1) / 2) :
    (decbSample p pos s).mem.read a = s.mem.read a := by
  obtain ⟨hr, hw, apart⟩ := hp
  have hne := apart a
  unfold Range.Has at hne
  rw [decbSample_mem]
  exact Memory.read_writeSample_ne _ _ (by omega) (by omega)

theorem decbSample_codesFrom {p : Plan} (hp : p.Decodes) {pos : Nat} (hpos : pos < p.samples) (s : State) {i n : Nat}
    (hn : i + n ≤ p.samples) :
    (decbSample p pos s).mem.codesFrom p.read.base i n = s.mem.codesFrom p.read.base i n :=
  Memory.codesFrom_congr fun _ ha ha' => decbSample_read_source hp hpos s ha (by omega)

theorem decbSample_holdsNibble {p : Plan} (hp : p.Decodes) {pos : Nat} (hpos : pos < p.samples) (s : State) :
    (decbSample p pos s).HoldsNibble p (pos + 1) := by
  intro h
  have hsame : (pos + 1) / 2 = pos / 2 := by omega
  rw [decbSample_hold_even (by omega), hsame, decbSample_read_source hp hpos s (by omega) (by omega)]

theorem decbLoop_adp {p : Plan} (hp : p.Decodes) {n pos : Nat} {s : State} (hn : pos + n = p.samples)
    (hhold : s.HoldsNibble p pos) :
    (decbLoop p n pos s).dev.adp = decodeEnd s.cfg s.dev.adp (s.mem.codesFrom p.read.base pos n) := by
  induction n generalizing pos s with
  | zero => rfl
  | succ n ih =>
    rw [decbLoop, ih (by omega) (decbSample_holdsNibble hp (by omega) s),
      decbSample_codesFrom hp (by omega) s (by omega), decbSample_adp, unpackCode_fst hhold,
      (decbSample_onlyStreams p pos s).cfg, Memory.codesFrom_succ]
    rfl

/-- The sample the loop writes first stays: the samples after it go to higher addresses. -/
theorem decbLoop_first_sample (p : Plan) (n pos : Nat) {s : State} (hm : s.mem.wf) :
    (decbLoop p (n + 1) pos s).mem.readSample (p.write.base + 2 * pos) = (decbSample p pos s).dev.adp.pred := by
  have low := decbLoop_read_outside p n (pos + 1) (decbSample p pos s) (p.write.base + 2 * pos) (by omega)
  have high := decbLoop_read_outside p n (pos + 1) (decbSample p pos s) (p.write.base + 2 * pos + 1) (by omega)
  rw [decbLoop, Memory.readSample_congr low high, decbSample_mem, Memory.readSample_writeSample hm]

/-- DECB's loop leaves the decoder's samples in the destination. -/
theorem decbLoop_samplesFrom {p : Plan} (hp : p.Decodes) {n pos : Nat} {s : State} (hm : s.mem.wf)
    (hn : pos + n = p.samples) (hhold : s.HoldsNibble p pos) :
    (decbLoop p n pos s).mem.samplesFrom p.write.base pos n =
      decodeSamples s.cfg s.dev.adp (s.mem.codesFrom p.read.base pos n) := by
  induction n generalizing pos s with
  | zero => rfl
  | succ n ih =>
    rw [Memory.samplesFrom_succ, decbLoop_first_sample p n pos hm, decbLoop,
      ih (decbSample_wf p pos hm) (by omega) (decbSample_holdsNibble hp (by omega) s),
      decbSample_codesFrom hp (by omega) s (by omega), decbSample_adp, unpackCode_fst hhold,
      (decbSample_onlyStreams p pos s).cfg, Memory.codesFrom_succ]
    rfl

/-! ### The commands where nothing stands in the way -/

theorem Plan.checked_of_below {c : Params} {p : Plan} (hr : p.read.Below c.addrW) (hw : p.write.Below c.addrW) :
    p.checked c = .ok p := by
  rw [Plan.checked, (Range.fits_iff _ _).2 hr, (Range.fits_iff _ _).2 hw]
  rfl

theorem runPlan_of_clear {plan : Except ErrCode Plan} {p : Plan} {s : State} (hp : plan = .ok p)
    (h : s.Clear p.read p.write) (cont : Bool) (loop : Plan → State → State) :
    runPlan plan cont loop s =
      .next ((loop p (s.setAdp (s.startAdp cont))).complete (BitVec.ofNat 32 p.write.len)) := by
  obtain ⟨hr, ha⟩ := State.planRefusal_of_clear h
  simp [runPlan, hp, hr, ha]

/-- The plan of an ENCB of the `n` samples at `src` into the bytes at `dst`. -/
def Plan.encb (src n dst : Nat) : Plan := ⟨n, ⟨src, 2 * n⟩, ⟨dst, (n + 1) / 2⟩⟩

/-- The plan of a DECB of the `n` codes at `src` into the samples at `dst`. -/
def Plan.decb (src n dst : Nat) : Plan := ⟨n, ⟨src, (n + 1) / 2⟩, ⟨dst, 2 * n⟩⟩

theorem State.EncbOperands.plan {s : State} {src n dst : Nat} (h : s.EncbOperands src n dst)
    (hr : Range.Below ⟨src, 2 * n⟩ s.cfg.addrW) (hw : Range.Below ⟨dst, (n + 1) / 2⟩ s.cfg.addrW) :
    encbPlan s.cfg s.dev.hid = .ok (Plan.encb src n dst) := by
  obtain ⟨hsrc, hlen, hdst, hroom⟩ := h
  have ranges : encbRanges s.dev.hid = Plan.encb src n dst := by
    simp [encbRanges, Plan.encb, hsrc, hlen, hdst, halfUp_eq, shiftRight_one]
  rw [encbPlan, ranges, if_neg (by omega)]
  exact (if_neg (Nat.not_lt.2 hroom)).trans (Plan.checked_of_below hr hw)

theorem State.DecbOperands.plan {s : State} {src n dst : Nat} (h : s.DecbOperands src n dst)
    (hr : Range.Below ⟨src, (n + 1) / 2⟩ s.cfg.addrW) (hw : Range.Below ⟨dst, 2 * n⟩ s.cfg.addrW) :
    decbPlan s.cfg s.dev.hid = .ok (Plan.decb src n dst) := by
  obtain ⟨hsrc, hcount, hlen, hdst, hroom⟩ := h
  have ranges : decbRanges s.dev.hid = Plan.decb src n dst := by
    simp [decbRanges, Plan.decb, hsrc, hcount, hdst, halfUp_eq]
  rw [decbPlan, ranges]
  exact (if_neg (Nat.not_lt.2 hlen)).trans ((if_neg (Nat.not_lt.2 hroom)).trans (Plan.checked_of_below hr hw))

/-- ENCB and ENCB.C, completed: the encoder's end state, and its codes in the destination. -/
theorem exec_encb_completed {s : State} {src n dst : Nat} (cont : Bool) (hm : s.mem.wf)
    (hop : s.EncbOperands src n dst) (hr : Range.Below ⟨src, 2 * n⟩ s.cfg.addrW)
    (hw : Range.Below ⟨dst, (n + 1) / 2⟩ s.cfg.addrW) (hclear : s.Clear ⟨src, 2 * n⟩ ⟨dst, (n + 1) / 2⟩) :
    ∃ t, exec (.encb cont) s = .next t ∧
      s.Completed t (encodeEnd s.cfg (s.startAdp cont) (s.mem.samplesAt src n)) (BitVec.ofNat 32 ((n + 1) / 2)) ∧
      t.mem.wf ∧ t.mem.codesAt dst n = encodeCodes s.cfg (s.startAdp cont) (s.mem.samplesAt src n) := by
  have hp : (Plan.encb src n dst).Encodes := ⟨rfl, rfl, hclear.apart⟩
  have hrun : exec (.encb cont) s = _ := runPlan_of_clear (hop.plan hr hw) hclear cont _
  rw [Memory.samplesAt_eq_samplesFrom]
  refine ⟨_, hrun, ⟨?adp, rfl, rfl, rfl, exec_sameAround hrun⟩, encbLoop_wf _ _ _ _ hm, ?codes⟩
  case adp => exact encbLoop_adp hp (Nat.zero_add n)
  case codes =>
    rw [Memory.codesAt_eq_codesFrom]
    exact encbLoop_codesFrom hp hm (Nat.zero_add n)

/-- DECB and DECB.C, completed: the decoder's end state, and its samples in the destination. -/
theorem exec_decb_completed {s : State} {src n dst : Nat} (cont : Bool) (hm : s.mem.wf)
    (hop : s.DecbOperands src n dst) (hr : Range.Below ⟨src, (n + 1) / 2⟩ s.cfg.addrW)
    (hw : Range.Below ⟨dst, 2 * n⟩ s.cfg.addrW) (hclear : s.Clear ⟨src, (n + 1) / 2⟩ ⟨dst, 2 * n⟩) :
    ∃ t, exec (.decb cont) s = .next t ∧
      s.Completed t (decodeEnd s.cfg (s.startAdp cont) (s.mem.codesAt src n)) (BitVec.ofNat 32 (2 * n)) ∧
      t.mem.samplesAt dst n = decodeSamples s.cfg (s.startAdp cont) (s.mem.codesAt src n) := by
  have hp : (Plan.decb src n dst).Decodes := ⟨rfl, rfl, hclear.apart⟩
  have hrun : exec (.decb cont) s = _ := runPlan_of_clear (hop.plan hr hw) hclear cont _
  rw [Memory.codesAt_eq_codesFrom]
  refine ⟨_, hrun, ⟨?adp, rfl, rfl, rfl, exec_sameAround hrun⟩, ?samples⟩
  case adp => exact decbLoop_adp hp (Nat.zero_add n) nofun
  case samples =>
    rw [Memory.samplesAt_eq_samplesFrom]
    exact decbLoop_samplesFrom hp hm (Nat.zero_add n) nofun

/-! ### DECB of ENCB's output -/

theorem State.startAdp_congr {s u : State} {cont : Bool} (h : cont = true → u.dev.adp = s.dev.adp) :
    u.startAdp cont = s.startAdp cont := by
  cases cont with
  | false => rfl
  | true => exact h rfl

/-- Settles O32: ENCB leaves the encoder's codes for DECB to read, and a decoder fed those tracks the encoder. -/
theorem decbOfEncbTracks : Obligations.DecbOfEncbTracks := by
  intro s t u cont src dst dst2 n hm hsrc hlen hdst hroom hr hw hclear hexec humem hucfg huadp husrc hun hudst hulen
    huroom huw huclear
  obtain ⟨t', hexec', ht, htm, hcodes⟩ :=
    exec_encb_completed cont hm ⟨hsrc.symm, hlen.symm, hdst.symm, hroom⟩ hr hw hclear
  obtain rfl : t' = t := Host.Outcome.next.inj (hexec'.symm.trans hexec)
  have hcfg : u.cfg = s.cfg := hucfg.trans ht.around.cfg
  obtain ⟨v, hv, hcompleted, hsamples⟩ :=
    exec_decb_completed cont (humem ▸ htm) ⟨husrc.symm, hun.symm, hulen, hudst.symm, huroom⟩ (hcfg ▸ hw) huw huclear
  rw [humem, hcodes, hcfg, State.startAdp_congr huadp] at hcompleted hsamples
  refine ⟨v, hv, ?state, ?samples⟩
  case state => rw [hcompleted.adp, decodeEnd_encodeCodes, ht.adp]
  case samples =>
    rw [hsamples, decodeSamples, decodeStates_encodeCodes]
    rfl

end Sys2Proof.Machine

/-! PROOFS. Packing codes into bytes, and the streams of two chunks (41_buffer_ops.md R140-R145, section 4). -/
namespace Sys2Proof.Machine

/-! ### Packing (R140) -/

theorem length_pack (codes : List Code) : (pack codes).length = (codes.length + 1) / 2 := by
  induction codes using pack.induct with
  | case1 => rfl
  | case2 x => simp [pack]
  | case3 x y rest ih =>
    simp only [pack, List.length_cons, ih]
    omega

/-- Byte `j` of a packed sequence is its code `2j`, if there is one, with the next code or with zero. -/
theorem pack_getElem? (codes : List Code) (j : Nat) :
    (pack codes)[j]? = codes[2 * j]?.map (· ++ codes[2 * j + 1]?.getD 0#4) := by
  induction codes using pack.induct generalizing j with
  | case1 => rfl
  | case2 x => cases j <;> rfl
  | case3 x y rest ih =>
    cases j with
    | zero => rfl
    | succ j => exact ih j

theorem pack_append {xs : List Code} (h : xs.length % 2 = 0) (ys : List Code) :
    pack (xs ++ ys) = pack xs ++ pack ys := by
  induction xs using pack.induct with
  | case1 => rfl
  | case2 x => cases h
  | case3 x y rest ih =>
    have heven : rest.length % 2 = 0 := by
      rw [List.length_cons, List.length_cons] at h
      omega
    exact congrArg (_ :: ·) (ih heven)

/-- The nibble of code `i` in the packed sequence is that code (R142). -/
theorem codeOfByte_pack {codes : List Code} {i : Nat} {x : Code} (hx : codes[i]? = some x) :
    codeOfByte i ((pack codes).getD (i / 2) 0) = x := by
  rw [List.getD_eq_getElem?_getD, pack_getElem?]
  rcases Nat.mod_two_eq_zero_or_one i with h | h
  · have hi : 2 * (i / 2) = i := by omega
    rw [hi, hx]
    exact codeOfByte_even h _ _
  · have hi : 2 * (i / 2) + 1 = i := by omega
    obtain ⟨y, hy⟩ : ∃ y, codes[2 * (i / 2)]? = some y := by
      have := (List.getElem?_eq_some_iff.1 hx).1
      exact ⟨_, List.getElem?_eq_getElem (by omega)⟩
    rw [hi, hx, hy]
    exact codeOfByte_odd h _ _

theorem unpack_pack (codes : List Code) : unpack codes.length (pack codes) = codes := by
  refine List.ext_getElem (by simp [unpack]) fun i _ hi => ?_
  simp only [unpack, List.getElem_map, List.getElem_range, shiftRight_one]
  exact codeOfByte_pack (List.getElem?_eq_getElem hi)

/-- Settles O30: each byte by `pack_getElem?`, and each code back by its nibble. -/
theorem packThenUnpack : Obligations.PackThenUnpack := by
  intro codes
  refine ⟨length_pack codes, fun j x y hx hy => ?pair, fun x hodd hx => ?tail, unpack_pack codes⟩
  case pair =>
    rw [pack_getElem?, hx, hy]
    rfl
  case tail =>
    have hlast : 2 * ((codes.length - 1) / 2) = codes.length - 1 := by omega
    rw [pack_getElem?, hlast, hx, List.getElem?_eq_none (by omega)]
    rfl

/-! ### The streams of two chunks (section 4) -/

theorem encodeCodes_append (c : Params) (a : Adaptation) (xs ys : List Sample) :
    encodeCodes c a (xs ++ ys) = encodeCodes c a xs ++ encodeCodes c (encodeEnd c a xs) ys := by
  induction xs generalizing a with
  | nil => rfl
  | cons x xs ih => exact congrArg (_ :: ·) (ih _)

theorem encodeEnd_append (c : Params) (a : Adaptation) (xs ys : List Sample) :
    encodeEnd c a (xs ++ ys) = encodeEnd c (encodeEnd c a xs) ys := by
  induction xs generalizing a with
  | nil => rfl
  | cons x xs ih => exact ih _

theorem pack_encodeCodes_append (c : Params) (a : Adaptation) {xs : List Sample} (h : xs.length % 2 = 0)
    (ys : List Sample) :
    pack (encodeCodes c a (xs ++ ys)) =
      pack (encodeCodes c a xs) ++ pack (encodeCodes c (encodeEnd c a xs) ys) := by
  rw [encodeCodes_append, pack_append (by rwa [encodeCodes_length])]

theorem decodeStates_append (c : Params) (a : Adaptation) (xs ys : List Code) :
    decodeStates c a (xs ++ ys) = decodeStates c a xs ++ decodeStates c (decodeEnd c a xs) ys := by
  induction xs generalizing a with
  | nil => rfl
  | cons x xs ih => exact congrArg (_ :: ·) (ih _)

theorem decodeSamples_append (c : Params) (a : Adaptation) (xs ys : List Code) :
    decodeSamples c a (xs ++ ys) = decodeSamples c a xs ++ decodeSamples c (decodeEnd c a xs) ys := by
  rw [decodeSamples, decodeStates_append, List.map_append]
  rfl

theorem decodeEnd_append (c : Params) (a : Adaptation) (xs ys : List Code) :
    decodeEnd c a (xs ++ ys) = decodeEnd c (decodeEnd c a xs) ys :=
  List.foldl_append

/-- Settles O55: the recursions of the encoder and the decoder carry the state along; an even number of codes fills
whole bytes. -/
theorem streamChunkingLaw : Obligations.StreamChunkingLaw :=
  fun c a xs ys cs ds =>
    ⟨fun h => pack_encodeCodes_append c a h ys, encodeEnd_append c a xs ys, decodeSamples_append c a cs ds,
      decodeEnd_append c a cs ds⟩

end Sys2Proof.Machine

/-! PROOFS. The checks of ENCB and DECB in their order (41_buffer_ops.md R150, R160; 60_exceptions.md R184). -/
namespace Sys2Proof.Machine

/-- A plan that its checks reject ends the command with the report alone (R182). -/
theorem runPlan_error_failed {plan : Except ErrCode Plan} {e : ErrCode} (h : plan = .error e) (cont : Bool)
    (loop : Plan → State → State) (s : State) : ∃ t, runPlan plan cont loop s = .next t ∧ s.Failed t e :=
  ⟨s.fail e, by rw [h, runPlan], s.fail_failed e⟩

theorem Plan.checked_eq_range {c : Params} {p : Plan} (h : ¬(p.read.Below c.addrW ∧ p.write.Below c.addrW)) :
    p.checked c = .error .range := by
  rw [← Range.fits_iff, ← Range.fits_iff, ← Bool.and_eq_true] at h
  exact if_neg h

theorem encbRanges_read (h : Hidden) : (encbRanges h).read = ⟨h.srcl.toNat, h.srclenl.toNat⟩ := rfl

theorem encbRanges_write (h : Hidden) :
    (encbRanges h).write = ⟨h.dstl.toNat, (h.srclenl.toNat / 2 + 1) / 2⟩ := by
  rw [encbRanges, shiftRight_one, halfUp_eq]

/-- Settles O18: each error is the answer of ENCB's checks, the earlier ones passed. -/
theorem encbChecksInOrder : Obligations.EncbChecksInOrder := by
  rintro s cont _ _ _ _ rfl rfl rfl rfl
  refine ⟨fun hodd => ?framing, fun heven hshort => ?short, fun heven hroom hrange => ?range⟩
  case framing => exact runPlan_error_failed (if_pos hodd) _ _ _
  all_goals
    refine runPlan_error_failed ?_ _ _ _
    rw [encbPlan, if_neg (by omega), encbRanges_write]
  case short => exact if_pos hshort
  case range =>
    rw [if_neg (Nat.not_lt.2 hroom), Plan.checked_eq_range]
    rwa [encbRanges_read, encbRanges_write]

theorem decbRanges_read (h : Hidden) : (decbRanges h).read = ⟨h.srcl.toNat, (h.nsampl.toNat + 1) / 2⟩ := by
  rw [decbRanges, halfUp_eq]

theorem decbRanges_write (h : Hidden) : (decbRanges h).write = ⟨h.dstl.toNat, 2 * h.nsampl.toNat⟩ := rfl

/-- Settles O19: each error is the answer of DECB's checks, the earlier ones passed. -/
theorem decbChecksInOrder : Obligations.DecbChecksInOrder := by
  rintro s cont _ _ _ rfl rfl rfl
  refine ⟨fun hsrc => ?source, fun hsrc hshort => ?short, fun hsrc hroom hrange => ?range⟩
  all_goals
    refine runPlan_error_failed ?_ _ _ _
    rw [decbPlan, decbRanges_read, decbRanges_write]
  case source => exact if_pos hsrc
  case short => rw [if_neg (Nat.not_lt.2 hsrc), if_pos hshort]
  case range =>
    rw [if_neg (Nat.not_lt.2 hsrc), if_neg (Nat.not_lt.2 hroom), Plan.checked_eq_range]
    rwa [decbRanges_read, decbRanges_write]

end Sys2Proof.Machine

/-! PROOFS. What ENCB and DECB write where nothing stands in the way, byte by byte (41_buffer_ops.md R150-R165), and the
chunking law of the commands (section 4). -/
namespace Sys2Proof.Machine

/-! ### Buffers in memory -/

/-- The `n` bytes at `base`. -/
def Memory.bytesAt (m : Memory) (base n : Nat) : List Byte := (List.range n).map fun j => m.read (base + j)

theorem Memory.bytesAt_getElem? (m : Memory) (base : Nat) {n j : Nat} (hj : j < n) :
    (m.bytesAt base n)[j]? = some (m.read (base + j)) := by
  simp [Memory.bytesAt, hj]

theorem Memory.bytesAt_add (m : Memory) (base n k : Nat) :
    m.bytesAt base (n + k) = m.bytesAt base n ++ m.bytesAt (base + n) k := by
  simp [Memory.bytesAt, List.range_add, Nat.add_assoc, Function.comp_def]

theorem Memory.samplesAt_add (m : Memory) (base n k : Nat) :
    m.samplesAt base (n + k) = m.samplesAt base n ++ m.samplesAt (base + 2 * n) k := by
  simp [Memory.samplesAt, List.range_add, Nat.mul_add, Nat.add_assoc, Function.comp_def]

/-- An even number of codes fills whole bytes (R140). -/
theorem Memory.codesAt_add (m : Memory) (base : Nat) {n : Nat} (h : n % 2 = 0) (k : Nat) :
    m.codesAt base (n + k) = m.codesAt base n ++ m.codesAt (base + n / 2) k := by
  have parity (i : Nat) : (n + i) % 2 = i % 2 := by omega
  have half (i : Nat) : (n + i) / 2 = n / 2 + i / 2 := by omega
  simp [Memory.codesAt, List.range_add, shiftRight_one, Function.comp_def, codeOfByte, parity, half, Nat.add_assoc]

theorem Memory.bytesAt_congr {m m' : Memory} {base n : Nat}
    (h : ∀ a, base ≤ a → a < base + n → m.read a = m'.read a) : m.bytesAt base n = m'.bytesAt base n :=
  List.map_congr_left fun _ hj => h _ (Nat.le_add_right _ _) (Nat.add_lt_add_left (List.mem_range.1 hj) _)

theorem Memory.samplesAt_congr {m m' : Memory} {base n : Nat}
    (h : ∀ a, base ≤ a → a < base + 2 * n → m.read a = m'.read a) : m.samplesAt base n = m'.samplesAt base n := by
  rw [Memory.samplesAt_eq_samplesFrom, Memory.samplesAt_eq_samplesFrom,
    Memory.samplesFrom_congr (by rwa [Nat.zero_add])]

theorem Memory.codesAt_congr {m m' : Memory} {base n : Nat}
    (h : ∀ a, base ≤ a → a < base + (n + 1) / 2 → m.read a = m'.read a) : m.codesAt base n = m'.codesAt base n := by
  rw [Memory.codesAt_eq_codesFrom, Memory.codesAt_eq_codesFrom, Memory.codesFrom_congr (by rwa [Nat.zero_add])]

theorem Memory.read_eq_of_bytesAt_eq {m m' : Memory} {base n a : Nat} (h : m.bytesAt base n = m'.bytesAt base n)
    (ha : base ≤ a) (ha' : a < base + n) : m.read a = m'.read a := by
  obtain ⟨j, rfl⟩ := Nat.exists_eq_add_of_le ha
  have hj : j < n := by omega
  have hbyte := congrArg (·[j]?) h
  simpa only [Memory.bytesAt_getElem? _ _ hj, Option.some.injEq] using hbyte

/-- The two bytes of a sample, low byte first (R62). -/
def sampleBytes (v : Sample) : List Byte := [v.extractLsb' 0 8, v.extractLsb' 8 8]

theorem Memory.sampleBytes_readSample (m : Memory) (a : Nat) : sampleBytes (m.readSample a) = m.bytesAt a 2 := by
  have hlow : (m.readSample a).extractLsb' 0 8 = m.read a := by
    rw [Memory.readSample_eq_append]
    exact BitVec.extractLsb'_append_eq_right
  have hhigh : (m.readSample a).extractLsb' 8 8 = m.read (a + 1) := by
    rw [Memory.readSample_eq_append]
    exact BitVec.extractLsb'_append_eq_left
  rw [sampleBytes, hlow, hhigh]
  rfl

theorem Memory.bytesAt_eq_flatMap_samplesAt (m : Memory) (base n : Nat) :
    m.bytesAt base (2 * n) = (m.samplesAt base n).flatMap sampleBytes := by
  induction n with
  | zero => rfl
  | succ n ih =>
    rw [Nat.mul_succ, Memory.bytesAt_add, Memory.samplesAt_add, List.flatMap_append, ih,
      ← Memory.sampleBytes_readSample]
    exact congrArg (_ ++ ·) (List.append_nil _).symm

/-! ### Packed codes in memory (R140, R145) -/

theorem highNibble_append_lowNibble (b : Byte) : highNibble b ++ lowNibble b = b :=
  (BitVec.extractLsb'_append_extractLsb'_eq_extractLsb' rfl).trans BitVec.extractLsb'_eq_self

/-- Codes read from memory pack into the bytes they stand in, an odd last one if a zero nibble follows it. -/
theorem pack_codesAt {m : Memory} {base n : Nat} (h : n % 2 = 1 → lowNibble (m.read (base + n / 2)) = 0#4) :
    pack (m.codesAt base n) = m.bytesAt base ((n + 1) / 2) := by
  induction n using Nat.twoStepInduction generalizing base with
  | zero => rfl
  | one =>
    have htail : lowNibble (m.read base) = 0#4 := h rfl
    exact congrArg ([·]) ((congrArg (_ ++ ·) htail.symm).trans (highNibble_append_lowNibble _))
  | more n ih =>
    have hbytes : (2 + n + 1) / 2 = 1 + (n + 1) / 2 := by omega
    have hrest : n % 2 = 1 → lowNibble (m.read (base + 1 + n / 2)) = 0#4 := by
      intro hodd
      have hlast : base + 1 + n / 2 = base + (n + 2) / 2 := by omega
      rw [hlast, h (by omega)]
    rw [Nat.add_comm n 2, Memory.codesAt_add _ _ rfl, pack_append (by rw [codesAt_length]), ih hrest, hbytes,
      Memory.bytesAt_add]
    exact congrArg (· :: _) (highNibble_append_lowNibble _)

/-- After an odd number of samples ENCB's last byte ends in a zero nibble. -/
theorem encbLoop_last_lowNibble {p : Plan} (hodd : p.samples % 2 = 1) {n pos : Nat} {s : State} (hm : s.mem.wf)
    (hn : pos + (n + 1) = p.samples) :
    lowNibble ((encbLoop p (n + 1) pos s).mem.read (p.write.base + p.samples / 2)) = 0#4 := by
  induction n generalizing pos s with
  | zero =>
    have hlast : p.samples / 2 = pos / 2 := by omega
    rw [encbLoop, encbLoop, encbSample_mem_last (by omega) hn, hlast, Memory.read_write_self hm]
    exact codeOfByte_odd (i := 1) rfl _ _
  | succ n ih => exact ih (encbSample_wf p pos hm) (by omega)

/-! ### The commands where nothing stands in the way -/

/-- A range inside another, by its ends. -/
theorem Range.has_of_le {b l b' l' : Nat} (hb : b ≤ b') (he : b' + l' ≤ b + l) (a : Nat) (ha : Range.Has ⟨b', l'⟩ a) :
    Range.Has ⟨b, l⟩ a :=
  ⟨Nat.le_trans hb ha.1, Nat.lt_of_lt_of_le ha.2 he⟩

/-- A range inside one that stays below the top of the address space does so too (R69). -/
theorem Range.Below.sub {r r' : Range} {addrW : Nat} (h : r.Below addrW) (hr : ∀ a, r'.Has a → r.Has a) :
    r'.Below addrW := by
  have hlast := hr (r'.base + r'.len - 1)
  unfold Range.Below Range.Has at *
  omega

/-- A command that reads `r` and writes `w` has its ranges in the address space and nothing in its way. -/
structure State.Accepts (s : State) (r w : Range) : Prop where
  read_below : r.Below s.cfg.addrW
  write_below : w.Below s.cfg.addrW
  clear : s.Clear r w

/-- A command accepted for its ranges is accepted, on the same platform, for ranges inside them. -/
theorem State.Accepts.sub {s u : State} {r w r' w' : Range} (h : s.Accepts r w) (hcfg : u.cfg = s.cfg)
    (hothers : u.others = s.others) (hr : ∀ a, r'.Has a → r.Has a) (hw : ∀ a, w'.Has a → w.Has a) :
    u.Accepts r' w' := by
  obtain ⟨hrb, hwb, apart, no_race, plain⟩ := h
  refine ⟨hcfg ▸ hrb.sub hr, hcfg ▸ hwb.sub hw, fun a ha => apart a ⟨hr a ha.1, hw a ha.2⟩, ?race, ?plain⟩
  case race =>
    rw [hcfg, hothers]
    intro d hd q hq a
    obtain ⟨hww, hwr, hrw⟩ := no_race d hd q hq a
    exact ⟨fun ha => hww ⟨hw a ha.1, ha.2⟩, fun ha => hwr ⟨hw a ha.1, ha.2⟩, fun ha => hrw ⟨hr a ha.1, ha.2⟩⟩
  case plain =>
    rw [hcfg]
    intro g hg a ha
    obtain ⟨hread, hwrite⟩ := plain g hg a ha
    exact ⟨fun hk ha => hread hk (hr a ha), fun hk ha => hwrite hk (hw a ha)⟩

/-- `u` is `s` with `e` in `PRED` and `INDEX` and with the `len` bytes `bytes` written at `dst`, as far as the memory
and the platform go. -/
structure State.Writes (s u : State) (e : Adaptation) (dst len : Nat) (bytes : List Byte) : Prop where
  cfg : u.cfg = s.cfg
  others : u.others = s.others
  mem_wf : u.mem.wf
  adp : u.dev.adp = e
  inside : u.mem.bytesAt dst len = bytes
  outside : s.SameOutside u dst len

/-- ENCB and ENCB.C, completed: the encoder's end state, its packed codes in the destination, and no other byte
changed. -/
theorem exec_encb_writes {s : State} {src n dst : Nat} (cont : Bool) (hm : s.mem.wf) (hop : s.EncbOperands src n dst)
    (h : s.Accepts ⟨src, 2 * n⟩ ⟨dst, (n + 1) / 2⟩) :
    ∃ t, exec (.encb cont) s = .next t ∧
      s.Completed t (encodeEnd s.cfg (s.startAdp cont) (s.mem.samplesAt src n)) (BitVec.ofNat 32 ((n + 1) / 2)) ∧
      s.Writes t (encodeEnd s.cfg (s.startAdp cont) (s.mem.samplesAt src n)) dst ((n + 1) / 2)
        (pack (encodeCodes s.cfg (s.startAdp cont) (s.mem.samplesAt src n))) := by
  obtain ⟨hr, hw, hclear⟩ := h
  obtain ⟨t, hexec, hcompleted, hwf, hcodes⟩ := exec_encb_completed cont hm hop hr hw hclear
  refine ⟨t, hexec, hcompleted, hcompleted.around.cfg, hcompleted.around.others, hwf, hcompleted.adp, ?inside, ?outside⟩
  case inside =>
    have hrun : exec (.encb cont) s = _ := runPlan_of_clear (hop.plan hr hw) hclear cont _
    obtain rfl := Host.Outcome.next.inj (hexec.symm.trans hrun)
    rw [← hcodes, pack_codesAt]
    intro hodd
    obtain ⟨k, rfl⟩ := Nat.exists_eq_add_one_of_ne_zero (n := n) (by omega)
    exact encbLoop_last_lowNibble (p := Plan.encb src (k + 1) dst) hodd hm (Nat.zero_add _)
  case outside =>
    have houtside := execEncb_sameOutside hexec
    rwa [hop.dest, hop.length, Nat.mul_div_cancel_left n Nat.two_pos] at houtside

theorem execDecb_wf {cont : Bool} {s t : State} (hm : s.mem.wf) (h : execDecb cont s = .next t) : t.mem.wf := by
  rcases runPlan_next h with rfl | ⟨e, -, rfl⟩ | ⟨p, -, -, rfl⟩
  · exact hm
  · exact hm
  · exact decbLoop_wf _ _ _ _ hm

/-- DECB and DECB.C, completed: the decoder's end state, its samples in the destination, and no other byte changed. -/
theorem exec_decb_writes {s : State} {src n dst : Nat} (cont : Bool) (hm : s.mem.wf) (hop : s.DecbOperands src n dst)
    (h : s.Accepts ⟨src, (n + 1) / 2⟩ ⟨dst, 2 * n⟩) :
    ∃ t, exec (.decb cont) s = .next t ∧
      s.Writes t (decodeEnd s.cfg (s.startAdp cont) (s.mem.codesAt src n)) dst (2 * n)
        ((decodeSamples s.cfg (s.startAdp cont) (s.mem.codesAt src n)).flatMap sampleBytes) := by
  obtain ⟨hr, hw, hclear⟩ := h
  obtain ⟨t, hexec, hcompleted, hsamples⟩ := exec_decb_completed cont hm hop hr hw hclear
  have houtside := execDecb_sameOutside hexec
  rw [hop.dest, hop.count] at houtside
  refine ⟨t, hexec, hcompleted.around.cfg, hcompleted.around.others, execDecb_wf hm hexec, hcompleted.adp, ?_, houtside⟩
  rw [Memory.bytesAt_eq_flatMap_samplesAt, hsamples]

/-- Settles O16: the packed codes byte by byte, the tail nibble included. -/
theorem encbEncodesTheBuffer : Obligations.EncbEncodesTheBuffer := by
  rintro s cont _ _ _ n _ _ _ hm rfl rfl rfl hlen rfl hroom hr hw hclear rfl rfl
  have haccepts : s.Accepts _ _ := ⟨hr, hw, hclear⟩
  rw [hlen] at haccepts
  obtain ⟨t, hexec, hcompleted, hwrites⟩ := exec_encb_writes cont hm ⟨rfl, hlen, rfl, hroom⟩ haccepts
  refine ⟨t, hexec, hcompleted, fun j hj => ?_, hwrites.outside⟩
  exact hwrites.inside ▸ Memory.bytesAt_getElem? _ _ hj

/-- Settles O17: the samples DECB leaves in its destination, and that it writes no other byte. -/
theorem decbDecodesTheBuffer : Obligations.DecbDecodesTheBuffer := by
  rintro s cont _ _ _ _ _ hm rfl rfl rfl hlen hroom hr hw hclear rfl rfl
  obtain ⟨t, hexec, hcompleted, hsamples⟩ := exec_decb_completed cont hm ⟨rfl, rfl, hlen, rfl, hroom⟩ hr hw hclear
  exact ⟨t, hexec, hcompleted, hsamples, execDecb_sameOutside hexec⟩

/-! ### The chunking law (section 4) -/

/-- A write right behind another makes one write of both. -/
theorem State.Writes.trans {s u v : State} {e e' : Adaptation} {dst n k : Nat} {xs ys : List Byte}
    (h : s.Writes u e dst n xs) (h' : u.Writes v e' (dst + n) k ys) : s.Writes v e' dst (n + k) (xs ++ ys) := by
  refine ⟨h'.cfg.trans h.cfg, h'.others.trans h.others, h'.mem_wf, h'.adp, ?inside, fun a ha => ?outside⟩
  case inside =>
    have hkept : v.mem.bytesAt dst n = u.mem.bytesAt dst n :=
      Memory.bytesAt_congr fun a _ ha => h'.outside a (.inl ha)
    rw [Memory.bytesAt_add, hkept, h.inside, h'.inside]
  case outside => rw [h'.outside a (by omega), h.outside a (by omega)]

/-- Two runs that write the same leave the same memory. -/
theorem State.Writes.sameMemory {s t u : State} {e e' : Adaptation} {dst n : Nat} {xs : List Byte}
    (ht : s.Writes t e dst n xs) (hu : s.Writes u e' dst n xs) : t.SameMemory u := by
  intro a
  by_cases ha : dst ≤ a ∧ a < dst + n
  · exact Memory.read_eq_of_bytesAt_eq (hu.inside.trans ht.inside.symm) ha.1 ha.2
  · rw [hu.outside a (by omega), ht.outside a (by omega)]

/-- What is written depends on the start state's memory and platform only. -/
theorem State.Writes.of_samePlatform {s s₁ u : State} {e : Adaptation} {dst n : Nat} {xs : List Byte}
    (hs : s.SamePlatform s₁) (h : s₁.Writes u e dst n xs) : s.Writes u e dst n xs :=
  ⟨h.cfg.trans hs.cfg, h.others.trans hs.others, h.mem_wf, h.adp, h.inside,
    fun a ha => hs.mem ▸ h.outside a ha⟩

/-- What is written is there for a state that goes on with the same memory, platform and Adaptation State. -/
theorem State.Writes.goOn {s u v : State} {e : Adaptation} {dst n : Nat} {xs : List Byte} (h : s.Writes u e dst n xs)
    (hv : u.SamePlatform v) (hadp : v.dev.adp = u.dev.adp) : s.Writes v e dst n xs := by
  obtain ⟨hcfg, hothers, hwf, hend, hin, hout⟩ := h
  rw [State.SameOutside, ← hv.mem] at hout
  rw [← hv.mem] at hwf hin
  exact ⟨hv.cfg.trans hcfg, hv.others.trans hothers, hwf, hadp.trans hend, hin, hout⟩

/-- A write into bytes apart from `r` leaves every byte of `r` as it was. -/
theorem State.Writes.read_apart {s u : State} {e : Adaptation} {dst n k : Nat} {xs : List Byte} {r : Range}
    (h : s.Writes u e dst n xs) (hr : ∀ a, ¬(r.Has a ∧ Range.Has ⟨dst, k⟩ a)) (hn : n ≤ k) {a : Nat} (ha : r.Has a) :
    u.mem.read a = s.mem.read a := by
  refine h.outside a ?_
  by_contra hin
  refine hr a ⟨ha, ?_⟩
  simp only [Range.Has]
  omega

/-- ENCB in two chunks: the second reads what stood in the source at the start, and starts where the encoder stopped. -/
theorem exec_encb_chunks {s s₁ : State} {cont : Bool} {src dst n₁ n₂ : Nat} (heven : n₁ % 2 = 0) (hm : s.mem.wf)
    (hop : s.EncbOperands src (n₁ + n₂) dst)
    (h : s.Accepts ⟨src, 2 * (n₁ + n₂)⟩ ⟨dst, (n₁ + n₂ + 1) / 2⟩) (hs : s.SamePlatform s₁)
    (hadp : s₁.startAdp cont = s.startAdp cont) (hop₁ : s₁.EncbOperands src n₁ dst) :
    ∃ t t₁, exec (.encb cont) s = .next t ∧ exec (.encb cont) s₁ = .next t₁ ∧
      ∀ s₂ : State, t₁.SamePlatform s₂ → s₂.dev.adp = t₁.dev.adp →
        s₂.EncbOperands (src + 2 * n₁) n₂ (dst + n₁ / 2) →
        ∃ t₂, exec (.encb true) s₂ = .next t₂ ∧ t₂.dev.adp = t.dev.adp ∧ t.SameMemory t₂ := by
  have hbytes₁ : (n₁ + 1) / 2 = n₁ / 2 := by omega
  have hbytes : n₁ / 2 + (n₂ + 1) / 2 = (n₁ + n₂ + 1) / 2 := by omega
  obtain ⟨t, hexec, -, ht⟩ := exec_encb_writes cont hm hop h
  obtain ⟨t₁, hexec₁, -, ht₁⟩ := exec_encb_writes cont (hs.mem ▸ hm) hop₁
    (h.sub hs.cfg hs.others (Range.has_of_le le_rfl (by omega)) (Range.has_of_le le_rfl (by omega)))
  rw [hs.mem, hs.cfg, hadp, hbytes₁] at ht₁
  refine ⟨t, t₁, hexec, hexec₁, fun s₂ hs₂ hadp₂ hop₂ => ?_⟩
  have hfirst := (ht₁.of_samePlatform hs).goOn hs₂ hadp₂
  obtain ⟨t₂, hexec₂, -, ht₂⟩ := exec_encb_writes true hfirst.mem_wf hop₂
    (h.sub hfirst.cfg hfirst.others (Range.has_of_le (by omega) (by omega)) (Range.has_of_le (by omega) (by omega)))
  have hstart : s₂.startAdp true = encodeEnd s.cfg (s.startAdp cont) (s.mem.samplesAt src n₁) := hfirst.adp
  have hsource : s₂.mem.samplesAt (src + 2 * n₁) n₂ = s.mem.samplesAt (src + 2 * n₁) n₂ :=
    Memory.samplesAt_congr fun a ha ha' =>
      hfirst.read_apart h.clear.apart (by omega) (Range.has_of_le (by omega) (by omega) a ⟨ha, ha'⟩)
  have hboth := hfirst.trans ht₂
  rw [hstart, hsource, hfirst.cfg, ← pack_encodeCodes_append _ _ (by rwa [samplesAt_length]), ← encodeEnd_append,
    ← Memory.samplesAt_add, hbytes] at hboth
  exact ⟨t₂, hexec₂, hboth.adp.trans ht.adp.symm, ht.sameMemory hboth⟩

/-- DECB in two chunks: the second reads what stood in the source at the start, and starts where the decoder stopped. -/
theorem exec_decb_chunks {s s₁ : State} {cont : Bool} {src dst n₁ n₂ : Nat} (heven : n₁ % 2 = 0) (hm : s.mem.wf)
    (hop : s.DecbOperands src (n₁ + n₂) dst)
    (h : s.Accepts ⟨src, (n₁ + n₂ + 1) / 2⟩ ⟨dst, 2 * (n₁ + n₂)⟩) (hs : s.SamePlatform s₁)
    (hadp : s₁.startAdp cont = s.startAdp cont) (hop₁ : s₁.DecbOperands src n₁ dst) :
    ∃ t t₁, exec (.decb cont) s = .next t ∧ exec (.decb cont) s₁ = .next t₁ ∧
      ∀ s₂ : State, t₁.SamePlatform s₂ → s₂.dev.adp = t₁.dev.adp →
        s₂.DecbOperands (src + n₁ / 2) n₂ (dst + 2 * n₁) →
        ∃ t₂, exec (.decb true) s₂ = .next t₂ ∧ t₂.dev.adp = t.dev.adp ∧ t.SameMemory t₂ := by
  obtain ⟨t, hexec, ht⟩ := exec_decb_writes cont hm hop h
  obtain ⟨t₁, hexec₁, ht₁⟩ := exec_decb_writes cont (hs.mem ▸ hm) hop₁
    (h.sub hs.cfg hs.others (Range.has_of_le le_rfl (by omega)) (Range.has_of_le le_rfl (by omega)))
  rw [hs.mem, hs.cfg, hadp] at ht₁
  refine ⟨t, t₁, hexec, hexec₁, fun s₂ hs₂ hadp₂ hop₂ => ?_⟩
  have hfirst := (ht₁.of_samePlatform hs).goOn hs₂ hadp₂
  obtain ⟨t₂, hexec₂, ht₂⟩ := exec_decb_writes true hfirst.mem_wf hop₂
    (h.sub hfirst.cfg hfirst.others (Range.has_of_le (by omega) (by omega)) (Range.has_of_le (by omega) (by omega)))
  have hstart : s₂.startAdp true = decodeEnd s.cfg (s.startAdp cont) (s.mem.codesAt src n₁) := hfirst.adp
  have hsource : s₂.mem.codesAt (src + n₁ / 2) n₂ = s.mem.codesAt (src + n₁ / 2) n₂ :=
    Memory.codesAt_congr fun a ha ha' =>
      hfirst.read_apart h.clear.apart (by omega) (Range.has_of_le (by omega) (by omega) a ⟨ha, ha'⟩)
  have hboth := hfirst.trans ht₂
  rw [hstart, hsource, hfirst.cfg, ← List.flatMap_append, ← decodeSamples_append, ← decodeEnd_append,
    ← Memory.codesAt_add _ _ heven, ← Nat.mul_add] at hboth
  exact ⟨t₂, hexec₂, hboth.adp.trans ht.adp.symm, ht.sameMemory hboth⟩

/-- Settles O31: the two chunks' writes lie side by side, and together they are the stream law's (O55) one write. -/
theorem chunkingLaw : Obligations.ChunkingLaw := by
  constructor
  · intro s s₁ cont src dst n₁ n₂ heven hm hop hr hw hclear hs hadp hop₁
    exact exec_encb_chunks heven hm hop ⟨hr, hw, hclear⟩ hs (State.startAdp_congr hadp) hop₁
  · intro s s₁ cont src dst n₁ n₂ heven hm hop hr hw hclear hs hadp hop₁
    exact exec_decb_chunks heven hm hop ⟨hr, hw, hclear⟩ hs (State.startAdp_congr hadp) hop₁

end Sys2Proof.Machine

/-! PROOFS. How a command and an idle device's turn end, and when an issue is refused (60_exceptions.md R180-R188, R195,
R196). -/
namespace Sys2Proof.Machine

/-! ### The idle device (R195) -/

theorem deviceTurn_idle {s : State} (h : s.dev.busy = false) : deviceTurn s = .next s :=
  if_neg (by simp [h])

/-- Settles O8: with an empty agenda or with its turn at the head, the selected device's turn is the step. -/
theorem idleDeviceKeepsItsState : Obligations.IdleDeviceKeepsItsState :=
  ⟨fun _ ha hidle => (step_nil ha).trans (deviceTurn_idle hidle),
    fun s rest ha hidle => (step_cons ha).trans (deviceTurn_idle (s := { s with agenda := rest }) hidle)⟩

/-! ### The endings of a command (R180, R182, R187) -/

theorem State.planRefusal_cases {s : State} {p : Plan} {r : Refusal} (h : s.planRefusal p = some r) :
    r = .aliased ∨ r = .bufferRace ∨ r = .sideEffects := by
  unfold State.planRefusal at h
  repeat' split at h
  all_goals cases h
  · exact .inl rfl
  · exact .inr (.inl rfl)
  · exact .inr (.inr rfl)

/-- A buffer command ends, is stuck, or is refused. -/
theorem runPlan_ends_or_stuck (plan : Except ErrCode Plan) (cont : Bool) (loop : Plan → State → State) (s : State) :
    (∃ t, runPlan plan cont loop s = .next t ∧ t.dev.busy = false) ∨
    (runPlan plan cont loop s = .next s ∨ runPlan plan cont loop s = .refused .aliased ∨
      runPlan plan cont loop s = .refused .bufferRace ∨ runPlan plan cont loop s = .refused .sideEffects) := by
  rcases runPlan_cases plan cont loop s with ⟨e, -, h⟩ | ⟨p, r, -, hr, h⟩ | ⟨p, -, -, -, h⟩ | ⟨p, -, -, -, h⟩
  · exact .inl ⟨_, h, s.fail_dev_busy e⟩
  · rcases State.planRefusal_cases hr with rfl | rfl | rfl
    · exact .inr (.inr (.inl h))
    · exact .inr (.inr (.inr (.inl h)))
    · exact .inr (.inr (.inr (.inr h)))
  · exact .inr (.inl h)
  · exact .inl ⟨_, h, State.complete_dev_busy _ _⟩

/-- Settles O11: the four commands without a buffer end in `fail` or `complete`, which clear `BUSY`. -/
theorem commandEndsOrIsStuck : Obligations.CommandEndsOrIsStuck := by
  intro i s
  cases i with
  | init => exact .inl ⟨_, rfl, rfl⟩
  | ldst p k =>
    rcases Nat.lt_or_ge 88 k.toNat with hk | hk
    · exact .inl ⟨_, exec_ldst_badState p hk s, rfl⟩
    · exact .inl ⟨_, exec_ldst_complete p hk s, rfl⟩
  | encs x => exact .inl ⟨_, rfl, rfl⟩
  | decs c => exact .inl ⟨_, rfl, rfl⟩
  | encb cont => exact (runPlan_ends_or_stuck _ _ _ _).imp_right fun h => ⟨.inl rfl, h⟩
  | decb cont => exact (runPlan_ends_or_stuck _ _ _ _).imp_right fun h => ⟨.inr rfl, h⟩

/-- Settles O10: every outcome that O11 leaves a command is a next state or a refusal. -/
theorem commandsNeverFault : Obligations.CommandsNeverFault := by
  intro i s r hfault
  rcases commandEndsOrIsStuck i s with ⟨t, h, -⟩ | ⟨-, h | h | h | h⟩ <;> cases hfault.symm.trans h

/-- Settles O20: the stuck device and a completed command both leave `ERR` 0, so the command ended in `fail`. -/
theorem failedCommandChangesNothing : Obligations.FailedCommandChangesNothing := by
  intro i s t hok h herr
  rcases exec_next h with rfl | ⟨e, rfl⟩ | ⟨u, v, -, rfl⟩
  · exact absurd hok herr
  · exact s.fail_failed e
  · exact absurd (u.complete_dev_err v) herr

/-! ### Refusals (R186, R188, R196) -/

theorem State.planRefusal_aliased {p : Plan} {a : Nat} (hr : p.read.Has a) (hw : p.write.Has a) (s : State) :
    s.planRefusal p = some .aliased :=
  if_pos ((Range.overlaps_iff _ _).2 ⟨a, hr, hw⟩)

/-- Two plans conflict when one writes a byte that the other reads or writes (R196). -/
theorem Plan.races_of_has {p q : Plan} {a : Nat}
    (h : (p.write.Has a ∧ q.write.Has a) ∨ (p.write.Has a ∧ q.read.Has a) ∨ (p.read.Has a ∧ q.write.Has a)) :
    p.races (some q) = true := by
  simp only [Plan.races, Bool.or_eq_true, Range.overlaps_iff]
  rcases h with h | h | h
  · exact .inl (.inl ⟨a, h⟩)
  · exact .inl (.inr ⟨a, h⟩)
  · exact .inr ⟨a, h⟩

theorem State.planRefusal_bufferRace {s : State} {p q : Plan} {d : Instance}
    (hapart : ∀ b, ¬(p.read.Has b ∧ p.write.Has b)) (hd : d ∈ s.others) (hq : d.running s.cfg = some q)
    (hrace : p.races (some q) = true) : s.planRefusal p = some .bufferRace := by
  have hself : p.read.overlaps p.write = false := (Range.overlaps_eq_false_iff _ _).2 hapart
  have hother : (s.others.any fun e => p.races (e.running s.cfg)) = true :=
    List.any_eq_true.2 ⟨d, hd, by rw [hq]; exact hrace⟩
  rw [State.planRefusal, hself, hother]
  rfl

theorem runPlan_refused {p : Plan} {r : Refusal} {s : State} (h : s.planRefusal p = some r) (cont : Bool)
    (loop : Plan → State → State) : runPlan (.ok p) cont loop s = .refused r := by
  simp [runPlan, h]

/-- A command word written to `CMD` of the idle selected instance is an issue (R36, R216). -/
theorem step_issue {s : State} {w : Word} {rest : List Turn}
    (h : s.agenda = .host (.regWrite s.dev.base 4 w) :: rest) (hidle : s.dev.busy = false) :
    step s = State.hostIssue { s with agenda := rest } w := by
  refine (step_regWrite (offset := 0x00#8) h rfl).trans ?_
  simp [State.writeReg, hidle, Reg.ofOffset]

/-- An issue is refused for the reason its plan is (R188, R196). -/
theorem step_issue_refused {s : State} {w : Word} {rest : List Turn} {p : Plan} {r : Refusal}
    (h : s.agenda = .host (.regWrite s.dev.base 4 w) :: rest) (hidle : s.dev.busy = false)
    (hp : commandPlan s.cfg (s.dev.latch s.cfg w) = some p) (hr : s.planRefusal p = some r) :
    step s = .refused r := by
  have hissue : (State.issue { s with agenda := rest } w).issueRefusal = some r := by
    simp only [State.issueRefusal, State.issue_cfg, State.issue_dev_hid, hp]
    exact hr
  rw [step_issue h hidle, State.hostIssue, hissue]

theorem commandPlan_encb {c : Params} {h : Hidden} {cont : Bool} {p : Plan} (hd : decode h.cmdl = .ok (.encb cont))
    (hp : encbPlan c h = .ok p) : commandPlan c h = some p := by
  rw [commandPlan, hd, hp]
  rfl

theorem commandPlan_decb {c : Params} {h : Hidden} {cont : Bool} {p : Plan} (hd : decode h.cmdl = .ok (.decb cont))
    (hp : decbPlan c h = .ok p) : commandPlan c h = some p := by
  rw [commandPlan, hd, hp]
  rfl

/-- Settles O21: the plan is refused as ALIAS, and the run and the issue are refused as their plan is. -/
theorem overlappingRangesAreRefused : Obligations.OverlappingRangesAreRefused := by
  refine ⟨fun s cont p a hr hw => ⟨fun hp => ?runEncb, fun hp => ?runDecb⟩,
    fun s w rest cont p a h hidle hr hw => ⟨fun hd hp => ?issueEncb, fun hd hp => ?issueDecb⟩⟩
  all_goals have halias := State.planRefusal_aliased hr hw s
  case runEncb =>
    rw [exec, execEncb, hp]
    exact runPlan_refused halias _ _
  case runDecb =>
    rw [exec, execDecb, hp]
    exact runPlan_refused halias _ _
  case issueEncb => exact step_issue_refused h hidle (commandPlan_encb hd hp) halias
  case issueDecb => exact step_issue_refused h hidle (commandPlan_decb hd hp) halias

/-- Settles O49: the plan does not overlap itself, so the conflict is what refuses it, and with it the issue. -/
theorem conflictingInstancesRefused : Obligations.ConflictingInstancesRefused := by
  intro s w rest p q d a h hidle hp hd hq hconflict hapart
  exact step_issue_refused h hidle hp (State.planRefusal_bufferRace hapart hd hq (Plan.races_of_has hconflict))

end Sys2Proof.Machine

/-! PROOFS. A turn of another instance is the selected one's turn between two exchanges (00_scope.md R10;
60_exceptions.md R196). -/
namespace Sys2Proof.Machine

/-! ### The exchange -/

theorem State.swap_of_getElem? {s : State} {j : Nat} {d : Instance} (h : s.others[j]? = some d) :
    s.swap j = { s with dev := d, others := s.others.set j s.dev } := by
  rw [State.swap, h]

/-- Exchanging back after a change that leaves the others as the first exchange put them: the selected instance is the
one of the start, and entry `j` is the changed one. -/
theorem State.swap_of_others_eq {s t : State} {j : Nat} (hj : j < s.others.length)
    (h : t.others = (s.swap j).others) : t.swap j = { t with dev := s.dev, others := s.others.set j t.dev } := by
  have hothers : t.others = s.others.set j s.dev := by rw [h, State.swap_eq hj]
  have hentry : t.others[j]? = some s.dev := by rw [hothers, List.getElem?_set_self hj]
  rw [State.swap_of_getElem? hentry, hothers, List.set_set]

theorem swapBack_next {j : Nat} {o : Host.Outcome State Fault Refusal} {t : State} (h : swapBack j o = .next t) :
    ∃ u, o = .next u ∧ t = u.swap j := by
  cases o with
  | next u => cases h; exact ⟨u, rfl, rfl⟩
  | fault r => cases h
  | refused r => cases h

/-! ### Turns of the selected instance and of another -/

theorem onWindow_of_inWindow {s : State} {addr : Nat} (h : s.dev.InWindow addr)
    (f : State → Host.Outcome State Fault Refusal) : onWindow addr f s = f s := by
  rw [onWindow, State.windowAt_eq_zero h]
  rfl

theorem onInstance_succ {s : State} {j : Nat} (hj : j < s.others.length)
    (f : State → Host.Outcome State Fault Refusal) : onInstance (j + 1) f s = swapBack j (f (s.swap j)) :=
  if_pos hj

/-- The window of entry `j` is that of the selected instance after the exchange. -/
theorem State.InWindowOf.swap {s : State} {j addr : Nat} (h : s.InWindowOf j addr) : (s.swap j).dev.InWindow addr := by
  obtain ⟨⟨d, hd, hw⟩, -, -⟩ := h
  rwa [State.swap_of_getElem? hd]

theorem onWindow_of_inWindowOf {s : State} {j addr : Nat} (hj : j < s.others.length) (h : s.InWindowOf j addr)
    (f : State → Host.Outcome State Fault Refusal) :
    onWindow addr f s = swapBack j (onWindow addr f (s.swap j)) := by
  rw [onWindow, State.windowAt_eq_succ h, onWindow_of_inWindow h.swap]
  exact onInstance_succ hj f

/-- A turn of entry `j` is the selected instance's turn between two exchanges. -/
theorem takeTurn_of_other {s : State} {j : Nat} {x : Turn} (hj : j < s.others.length) (h : s.TurnOfOther j x) :
    takeTurn x s = swapBack j (takeTurn x.ofSelected (s.swap j)) := by
  cases x with
  | device k => obtain rfl : k = j + 1 := h; exact onInstance_succ hj _
  | host a =>
    cases a with
    | reset k => obtain rfl : k = j + 1 := h; exact onInstance_succ hj _
    | regRead addr width => exact onWindow_of_inWindowOf hj h _
    | regWrite addr width v => exact onWindow_of_inWindowOf hj h _
    | memRead a => exact absurd h id
    | memWrite a v => exact absurd h id

/-- After the exchange the turn is one of the selected instance. -/
theorem State.TurnOfOther.swap {s : State} {j : Nat} {x : Turn} (h : s.TurnOfOther j x) :
    (s.swap j).TurnOfSelected x.ofSelected := by
  cases x with
  | device k => rfl
  | host a =>
    cases a with
    | reset k => rfl
    | regRead addr width => exact State.InWindowOf.swap h
    | regWrite addr width v => exact State.InWindowOf.swap h
    | memRead a => exact h
    | memWrite a v => exact h

/-- Only an entry that exists takes a turn. -/
theorem State.TurnOfOther.lt_length {s t : State} {j : Nat} {x : Turn} (h : s.TurnOfOther j x)
    (ht : takeTurn x s = .next t) : j < s.others.length := by
  have named {f : State → Host.Outcome State Fault Refusal} (hf : onInstance (j + 1) f s = .next t) :
      j < s.others.length := by
    rcases onInstance_next hf with ⟨hk, -⟩ | ⟨i, u, hk, hi, -, -⟩ <;> omega
  have windowed {addr : Nat} (hw : s.InWindowOf j addr) : j < s.others.length := by
    obtain ⟨⟨d, hd, -⟩, -, -⟩ := hw
    exact (List.getElem?_eq_some_iff.1 hd).1
  cases x with
  | device k => obtain rfl : k = j + 1 := h; exact named ht
  | host a =>
    cases a with
    | reset k => obtain rfl : k = j + 1 := h; exact named ht
    | regRead addr width => exact windowed h
    | regWrite addr width v => exact windowed h
    | memRead a => exact absurd h id
    | memWrite a v => exact absurd h id

/-- A turn of the selected instance is a move on it. -/
theorem State.TurnOfSelected.move {s t : State} {x : Turn} (h : s.TurnOfSelected x) (ht : takeTurn x s = .next t) :
    Move s t := by
  cases x with
  | device k => obtain rfl : k = 0 := h; exact .device ht
  | host a =>
    cases a with
    | reset k => obtain rfl : k = 0 := h; exact .reset ht
    | regRead addr width => exact .host (hostRegRead_hostMove ((onWindow_of_inWindow h _).symm.trans ht))
    | regWrite addr width v => exact .host (hostRegWrite_hostMove ((onWindow_of_inWindow h _).symm.trans ht))
    | memRead a => exact absurd h id
    | memWrite a v => exact absurd h id

/-- Settles O48: a move touches none of the others; between two exchanges, none but entry `j`. -/
theorem instancesShareOnlyMemory : Obligations.InstancesShareOnlyMemory := by
  constructor
  · intro s t x rest ha hx hstep
    rw [step_cons ha] at hstep
    exact (State.TurnOfSelected.move (s := { s with agenda := rest }) hx hstep).others
  · intro s t j x rest ha hx hstep
    rw [step_cons ha] at hstep
    have hx' : State.TurnOfOther { s with agenda := rest } j x := hx
    have hj := hx'.lt_length hstep
    rw [takeTurn_of_other hj hx'] at hstep
    obtain ⟨u, hu, rfl⟩ := swapBack_next hstep
    rw [State.swap_of_others_eq hj (hx'.swap.move hu).others]
    exact ⟨rfl, List.length_set, fun m hm => List.getElem?_set_ne (Ne.symm hm)⟩

/-- Settles O57: the state with the two exchanged is the one the turn runs on, and a move leaves its others in place for
the exchange back. -/
theorem everyInstanceTakesTheSameTurns : Obligations.EveryInstanceTakesTheSameTurns := by
  rintro s _ j d x rest ha hd hx rfl
  have hx' : State.TurnOfOther { s with agenda := rest } j x := hx
  have hj : j < s.others.length := (List.getElem?_eq_some_iff.1 hd).1
  have hswap := State.swap_of_getElem? (s := { s with agenda := rest }) hd
  have hturn := takeTurn_of_other (s := { s with agenda := rest }) hj hx
  rw [step_cons ha, hturn, hswap, step_cons rfl]
  refine ⟨fun t ht => ?next, fun r hr => ?fault, fun r hr => ?refused⟩
  case next =>
    have hmove := hx'.swap.move (hswap ▸ ht)
    rw [ht, swapBack, State.swap_of_others_eq (s := { s with agenda := rest }) hj hmove.others]
  case fault => rw [hr, swapBack]
  case refused => rw [hr, swapBack]

end Sys2Proof.Machine

/-! PROOFS. The turn of a busy device, an issue, a write while `BUSY` is 1, and the reset input
(70_reset_and_hazards.md R210-R218). -/
namespace Sys2Proof.Machine

/-! ### The busy device (R217) -/

theorem deviceTurn_busy {s : State} {i : Instr} (hbusy : s.dev.busy = true) (hd : decode s.dev.hid.cmdl = .ok i) :
    deviceTurn s = exec i s :=
  (if_pos hbusy).trans (deviceStep_of_decode hd)

/-- Settles O7: with an empty agenda or with its turn at the head, the selected device's turn is the step. -/
theorem stepRunsTheLatchedCommand : Obligations.StepRunsTheLatchedCommand :=
  ⟨fun _ _ ha hbusy hd => (step_nil ha).trans (deviceTurn_busy hbusy hd),
    fun s _ rest ha hbusy hd => (step_cons ha).trans (deviceTurn_busy (s := { s with agenda := rest }) hbusy hd)⟩

/-! ### The issue (R216) -/

/-- The latched command is not refused at issue when its plan, if it has one, is not (R188, R196). -/
theorem State.issueRefusal_issue_eq_none {s : State} {w : Word}
    (h : ∀ p, commandPlan s.cfg (s.dev.latch s.cfg w) = some p → s.planRefusal p = none) :
    (s.issue w).issueRefusal = none := by
  simp only [State.issueRefusal, State.issue_cfg, State.issue_dev_hid]
  cases hp : commandPlan s.cfg (s.dev.latch s.cfg w) with
  | none => rfl
  | some p => exact h p hp

theorem step_issue_admitted {s : State} {w : Word} {rest : List Turn}
    (h : s.agenda = .host (.regWrite s.dev.base 4 w) :: rest) (hidle : s.dev.busy = false)
    (hplan : ∀ p, commandPlan s.cfg (s.dev.latch s.cfg w) = some p → s.planRefusal p = none) :
    step s = .next (State.issue { s with agenda := rest } w) := by
  rw [step_issue h hidle, State.hostIssue, State.issueRefusal_issue_eq_none (s := { s with agenda := rest }) hplan]

/-- Settles O35: the step is the issue, whose fields are those of `Instance.latch` and `Instance.startBusy`. -/
theorem issueLatchesTheCommand : Obligations.IssueLatchesTheCommand := by
  intro s w rest h hidle hplan
  refine ⟨_, step_issue_admitted h hidle hplan, ?_⟩
  simp [Params.addrBits_toNat]

/-! ### Writes while `BUSY` is 1 (R218) -/

/-- The offsets of `CMD` and the operand registers (R35). -/
theorem Reg.guarded_ofOffset_iff (offset : BitVec 8) :
    Reg.guarded (Reg.ofOffset offset) = true ↔ offset ∈ [0x00#8, 0x14#8, 0x18#8, 0x1C#8, 0x20#8, 0x24#8] := by
  constructor
  · unfold Reg.ofOffset
    split
    case h_2 | h_3 | h_4 | h_5 | h_11 => exact nofun
    all_goals simp [← BitVec.toNat_inj, *]
  · revert offset
    decide

theorem State.writeReg_overflow {s : State} {r : Option Reg} (hbusy : s.dev.busy = true) (h : Reg.guarded r = true)
    (v : Word) : s.writeReg r v = .next { s with dev := s.dev.overflow } :=
  if_pos (by simp [hbusy, h])

/-- Settles O36: the listed offsets are those of the guarded registers; a write to any other register is ignored. -/
theorem writesWhileBusyAreIgnored : Obligations.WritesWhileBusyAreIgnored := by
  intro s offset v rest h hbusy ha
  rw [step_regWrite h ha, ← Reg.guarded_ofOffset_iff, Bool.not_eq_true]
  exact ⟨fun hg => State.writeReg_overflow (s := { s with agenda := rest }) hbusy hg v,
    fun hg => State.writeReg_unguarded hg v⟩

/-! ### The reset input (R210, R211) -/

@[simp] theorem State.abandonWrites_agenda (s : State) : s.abandonWrites.agenda = s.agenda := by
  unfold State.abandonWrites; split <;> rfl

@[simp] theorem State.abandonWrites_rdata (s : State) : s.abandonWrites.rdata = s.rdata := by
  unfold State.abandonWrites; split <;> rfl

theorem State.abandonWrites_of_idle {s : State} (hidle : s.dev.busy = false) : s.abandonWrites = s := by
  simp [State.abandonWrites, Instance.running, hidle]

/-- Only the bytes of the running command's write range are free (R211). -/
theorem State.abandonWrites_read {s : State} {a : Nat}
    (h : ∀ p, s.dev.running s.cfg = some p → ¬p.write.Has a) : s.abandonWrites.mem.read a = s.mem.read a := by
  rcases s.abandonWrites_cases with ⟨-, hs⟩ | ⟨p, hp, hs⟩
  · rw [hs]
  · have hout : a < p.write.base ∨ p.write.base + p.write.len ≤ a := by
      have hnot := h p hp
      unfold Range.Has at hnot
      omega
    rw [hs]
    exact Memory.read_scramble_ne _ _ _ hout

theorem Instance.resetWith_statusWord (base : Nat) (h : Hidden) : (Instance.resetWith base h).statusWord = 0 := by
  simp [Instance.statusWord, Instance.resetWith, ErrCode.code]

theorem step_reset {s : State} {rest : List Turn} (h : s.agenda = .host (.reset 0) :: rest) :
    step s = .next (State.abandonWrites { s with agenda := rest }).resetRegisters :=
  step_cons h

/-- Settles O34: the registers are those of `Instance.resetWith`, and memory is what the abandoned command leaves. -/
theorem resetInput : Obligations.ResetInput := by
  intro s rest h
  refine ⟨_, step_reset h, rfl, Instance.resetWith_statusWord _ _, rfl, rfl, rfl, rfl, rfl, rfl,
    ?base, ?cfg, ?others, ?agenda, ?rdata, ?idle, ?outside⟩
  case idle =>
    intro hidle
    rw [State.resetRegisters_mem, State.abandonWrites_of_idle (s := { s with agenda := rest }) hidle]
  case outside => exact fun a ha => State.abandonWrites_read (s := { s with agenda := rest }) ha
  all_goals simp [Instance.resetWith]

end Sys2Proof.Machine

/-! PROOFS. A memory in canonical form lists exactly the cells that read otherwise than an unlisted address does
(20_memory.md R61; log entry 6). -/
namespace Sys2Proof.Machine

theorem Memory.read_of_mem {m : Memory} (hm : m.wf) {c : Host.Cell} (hc : c ∈ m) : m.read c.1 = c.2 := by
  induction m with
  | nil => cases hc
  | cons d m ih =>
    obtain ⟨hp, hn⟩ := hm
    obtain ⟨hlt, hp'⟩ := List.pairwise_cons.1 hp
    rcases List.mem_cons.1 hc with rfl | hc
    · exact if_pos rfl
    · have hne : d.1 ≠ c.1 := Nat.ne_of_lt (hlt c hc)
      exact (if_neg hne).trans (ih ⟨hp', fun e he => hn e (List.mem_cons_of_mem d he)⟩ hc)

theorem Memory.mem_of_read_ne {m : Memory} {a : Nat} (h : m.read a ≠ Config.unlistedByte) : (a, m.read a) ∈ m := by
  induction m with
  | nil => exact absurd rfl h
  | cons d m ih =>
    obtain ⟨k, w⟩ := d
    by_cases hk : k = a
    · simp [Memory.read, hk]
    · rw [Memory.read, if_neg hk] at h ⊢
      exact List.mem_cons_of_mem _ (ih h)

/-- The cells of a canonical memory, in terms of what it reads. -/
theorem Memory.mem_iff_read {m : Memory} (hm : m.wf) (c : Host.Cell) :
    c ∈ m ↔ m.read c.1 = c.2 ∧ c.2 ≠ Config.unlistedByte := by
  refine ⟨fun hc => ⟨Memory.read_of_mem hm hc, hm.2 c hc⟩, fun ⟨hread, hne⟩ => ?_⟩
  have hmem := Memory.mem_of_read_ne (hread ▸ hne)
  rwa [hread] at hmem

/-- Settles O52: the two list the same cells, and a strictly rising list is known by what it lists. -/
theorem canonicalMemoriesAreEqual : Obligations.CanonicalMemoriesAreEqual := by
  intro m n hm hn hread
  have hasymm : Std.Asymm fun x y : Host.Cell => x.1 < y.1 := ⟨fun _ _ => Nat.lt_asymm⟩
  refine hm.1.eq_of_mem_iff hn.1 fun c => ?_
  rw [Memory.mem_iff_read hm, Memory.mem_iff_read hn, hread]

end Sys2Proof.Machine

/-! PROOFS. The step after a placed command word (70_reset_and_hazards.md R216, R217; log entry 2), and the host's
accesses to an address where nothing is (20_memory.md R60, R61; log entries 20, 27). -/
namespace Sys2Proof.Machine

/-! ### A placed command word -/

/-- With an empty agenda the selected device moves as it is; otherwise its turn is put at the head, and taken. -/
theorem step_deviceFirst (s : State) : step s.deviceFirst = deviceTurn s := by
  cases h : s.agenda with
  | nil =>
    rw [State.deviceFirst, h]
    exact step_nil h
  | cons x rest =>
    have hfirst : s.deviceFirst = { s with agenda := .device 0 :: s.agenda } := by rw [State.deviceFirst, h]
    rw [hfirst]
    exact step_cons (s := { s with agenda := .device 0 :: s.agenda }) rfl

theorem State.withFetchWord_toNat (s : State) (w : Word) : s.withFetchWord 32 w.toNat = (s.issue w).deviceFirst := by
  rw [State.withFetchWord, Nat.mod_eq_of_lt w.isLt, BitVec.ofNat_toNat, BitVec.setWidth_eq, State.loadCommand]

/-- Settles O9: the issue latches the word with `BUSY` 1, and the device's turn decodes it to the command it encodes. -/
theorem placedCommandRuns : Obligations.PlacedCommandRuns := by
  intro s i
  have hdecode : decode (s.issue (encode i)).dev.hid.cmdl = .ok i := decodeOfEncode i
  calc step (s.withFetchWord 32 (encode i).toNat)
    _ = step (s.issue (encode i)).deviceFirst := by rw [State.withFetchWord_toNat]
    _ = deviceTurn (s.issue (encode i)) := step_deviceFirst _
    _ = exec i (s.issue (encode i)) := deviceTurn_busy (s.issue_dev_busy _) hdecode

/-! ### Above the buffer memory (R61) -/

/-- No running command reaches above the buffer memory: its range check keeps both ranges below the top (R69). -/
theorem Instance.running_not_has_above {c : Params} {d : Instance} {p : Plan} (hp : d.running c = some p) {a : Nat}
    (ha : 2 ^ c.addrW ≤ a) : ¬p.read.Has a ∧ ¬p.write.Has a :=
  not_or.1 fun h => Nat.not_lt.2 ha (Instance.running_lt hp h)

theorem hostMemRead_above {s : State} {a : Nat} (ha : 2 ^ s.cfg.addrW ≤ a) :
    hostMemRead a s = .fault .noSuchAddress := by
  have hfree : s.inRunningWrite a = false :=
    State.inRunningWrite_eq_false fun _ _ _ hp => (Instance.running_not_has_above hp ha).2
  simp [hostMemRead, hfree, Params.admitsRead, Nat.not_lt.2 ha]

theorem hostMemWrite_above {s : State} {a : Nat} (v : Byte) (ha : 2 ^ s.cfg.addrW ≤ a) :
    hostMemWrite a v s = .fault .noSuchAddress := by
  have hfree : s.inRunningRange a = false :=
    State.inRunningRange_eq_false fun _ _ _ hp => Instance.running_not_has_above hp ha
  simp [hostMemWrite, hfree, Params.admitsWrite, Nat.not_lt.2 ha]

/-- Settles O46: the running ranges, looked at first, do not hold the byte, and the platform admits no access to it. -/
theorem accessAboveMemoryFaults : Obligations.AccessAboveMemoryFaults := by
  intro s a v rest ha
  exact ⟨fun h => (step_memRead h).trans (hostMemRead_above ha),
    fun h => (step_memWrite h).trans (hostMemWrite_above v ha)⟩

/-! ### In no instance's window (R60) -/

theorem State.windowAt_eq_none {s : State} {addr : Nat} (h : ∀ d ∈ s.instances, ¬d.InWindow addr) :
    s.windowAt addr = none := by
  refine List.findIdx?_eq_none_iff.2 fun d hd => ?_
  rw [← Bool.not_eq_true, Instance.offsetOf_isSome]
  exact h d hd

theorem onWindow_of_no_window {s : State} {addr : Nat} (h : ∀ d ∈ s.instances, ¬d.InWindow addr)
    (f : State → Host.Outcome State Fault Refusal) : onWindow addr f s = .fault .noSuchAddress := by
  rw [onWindow, State.windowAt_eq_none h]

/-- Settles O47: the address is in no window, so a read and a write alike reach no instance. -/
theorem accessOutsideTheWindowsFaults : Obligations.AccessOutsideTheWindowsFaults := by
  intro s addr width v rest haddr
  have hout : ∀ d ∈ s.instances, ¬d.InWindow addr := by
    intro d hd hw
    unfold Instance.InWindow at hw
    have := haddr d hd
    omega
  exact ⟨fun h => (step_cons h).trans (onWindow_of_no_window (s := { s with agenda := rest }) hout _),
    fun h => (step_cons h).trans (onWindow_of_no_window (s := { s with agenda := rest }) hout _)⟩

end Sys2Proof.Machine
